-- ==== Sys2Proof/Word.lean ====
section
/-! DEFINITION. The machine's word types (00_scope.md R4: 32-bit registers and addresses, 8-bit bytes). -/

namespace Sys2Proof

/-- A byte of memory (00_scope.md R4). -/
abbrev Byte := BitVec 8

/-- A register value, an address or an instruction word (00_scope.md R4, section 6 "Values"). -/
abbrev Word := BitVec 32

/-- `bitAt b k` is the word whose bit `k` is `b` and whose other bits are 0. -/
def bitAt (b : Bool) (k : Nat) : Word := if b then 1#32 <<< k else 0#32

end Sys2Proof
end

