-- ==== Sys2Proof/Syntax.lean ====
section
/-! DEFINITION. The instructions, one constructor for each row of spec/opcode_table.json, with the operands that the decoded
form of 30_encoding.md R95 carries. Bits the decoder ignores (R92) are no operands. -/

namespace Sys2Proof

/-- The sixteen values of the condition field (40_step_and_condition.md R105), in the order of their codes. -/
inductive Cond where
  | eq | ne | cs | cc | mi | pl | vs | vc | hi | ls | ge | lt | gt | le | al | nv
  deriving DecidableEq, Repr

/-- The shift types (30_encoding.md R89), in the order of their codes; `ror` with a zero immediate amount is RRX. -/
inductive ShiftType where
  | lsl | lsr | asr | ror
  deriving DecidableEq, Repr

/-- A logical register index, r0 to r15 (10_state.md R22, R34: "A model gives the index the type of integers 0 to 15"). -/
abbrev Reg := Fin 16

/-- The operand of a Move (30_encoding.md R95, R88, R89). -/
inductive ShifterOperand where
  | imm (rot : BitVec 4) (imm8 : BitVec 8)
  | regImmShift (rm : Reg) (type : ShiftType) (amount : BitVec 5)
  | regRegShift (rm : Reg) (type : ShiftType) (rs : Reg)
  deriving DecidableEq, Repr

/-- The source of a status-register transfer (30_encoding.md R95). -/
inductive PsrSource where
  | imm (rot : BitVec 4) (imm8 : BitVec 8)
  | reg (rm : Reg)
  deriving DecidableEq, Repr

/-- The instructions. Every one carries its condition (30_encoding.md R81). A branch carries the signed 32-bit byte offset
that the decoder computed (R87, R95; log 26). -/
inductive Instr where
  /-- `B` (41_branch.md R120). -/
  | b (cond : Cond) (offset : Word)
  /-- `BL` (41_branch.md R121). -/
  | bl (cond : Cond) (offset : Word)
  /-- `MOV{S} Rd, #imm` (42_move.md R131). -/
  | movImm (cond : Cond) (setFlags : Bool) (rd : Reg) (rot : BitVec 4) (imm8 : BitVec 8)
  /-- `MOV{S} Rd, Rm, <shift> #n` (42_move.md R132). -/
  | movRegImm (cond : Cond) (setFlags : Bool) (rd rm : Reg) (type : ShiftType) (amount : BitVec 5)
  /-- `MOV{S} Rd, Rm, <shift> Rs` (42_move.md R138). -/
  | movRegReg (cond : Cond) (setFlags : Bool) (rd rm : Reg) (type : ShiftType) (rs : Reg)
  /-- `MSR CPSR_<fields>, #imm` (43_psr_transfer.md R150). -/
  | msrCpsrImm (cond : Cond) (fieldMask : BitVec 4) (rot : BitVec 4) (imm8 : BitVec 8)
  /-- `MSR SPSR_<fields>, #imm` (43_psr_transfer.md R151). -/
  | msrSpsrImm (cond : Cond) (fieldMask : BitVec 4) (rot : BitVec 4) (imm8 : BitVec 8)
  /-- `MSR CPSR_<fields>, Rm` (43_psr_transfer.md R152). -/
  | msrCpsrReg (cond : Cond) (fieldMask : BitVec 4) (rm : Reg)
  /-- `MSR SPSR_<fields>, Rm` (43_psr_transfer.md R153). -/
  | msrSpsrReg (cond : Cond) (fieldMask : BitVec 4) (rm : Reg)
  deriving DecidableEq, Repr

/-- The condition an instruction carries (30_encoding.md R81). -/
def Instr.cond : Instr → Cond
  | .b c _ => c
  | .bl c _ => c
  | .movImm c _ _ _ _ => c
  | .movRegImm c _ _ _ _ _ => c
  | .movRegReg c _ _ _ _ _ => c
  | .msrCpsrImm c _ _ _ => c
  | .msrSpsrImm c _ _ _ => c
  | .msrCpsrReg c _ _ => c
  | .msrSpsrReg c _ _ => c

end Sys2Proof
end

