-- ==== Sys2Proof/WellFormed.lean ====
section
/-! DEFINITION. Which instructions some word decodes to. The operand types leave one thing to check: a branch offset is a
multiple of 4 in the range of 30_encoding.md R87. -/

namespace Sys2Proof

/-- 30_encoding.md R87: "The offset is always a multiple of 4", the low two bits of the offset being zero. -/
def offsetAligned (offset : Word) : Bool := offset.extractLsb' 0 2 == 0#2

/-- 30_encoding.md R87: "range -0x01FFFFF8 .. +0x02000004", read as a signed number. -/
def offsetInRange (offset : Word) : Bool := decide (-0x01FFFFF8 ≤ offset.toInt) && decide (offset.toInt ≤ 0x02000004)

/-- An instruction that some word decodes to. -/
def Instr.wellFormed : Instr → Bool
  | .b _ offset => offsetAligned offset && offsetInRange offset
  | .bl _ offset => offsetAligned offset && offsetInRange offset
  | .movImm _ _ _ _ _ => true
  | .movRegImm _ _ _ _ _ _ => true
  | .movRegReg _ _ _ _ _ _ => true
  | .msrCpsrImm _ _ _ _ => true
  | .msrSpsrImm _ _ _ _ => true
  | .msrCpsrReg _ _ _ => true
  | .msrSpsrReg _ _ _ => true

end Sys2Proof
end

