-- ==== Sys2Proof/Decode.lean ====
section
/-! DEFINITION. The decoder (30_encoding.md R82 to R95), total on every word and on every list of bytes, and after it the
encoder, written from the same formats (R84 to R89). -/

namespace Sys2Proof

/-- Why bytes are no instruction. -/
inductive DecodeReject where
  /-- The word matches no entry of the class table (30_encoding.md R90). -/
  | unrecognised (w : Word)
  /-- The input is not "exactly 4 bytes" (30_encoding.md R80). -/
  | notFourBytes (n : Nat)
  deriving DecidableEq, Repr

/-- The entries of the class table (30_encoding.md R83). -/
inductive ClassName where
  | psrImm | psrReg | movImm | movRegImmShift | movRegRegShift | branch
  deriving DecidableEq, Repr

/-- One row of the class table: a word `w` matches when `w AND mask = value` (30_encoding.md R82). -/
structure ClassEntry where
  entry : ClassName
  mask : Word
  value : Word
  deriving DecidableEq, Repr

def ClassEntry.matchesWord (e : ClassEntry) (w : Word) : Bool := w &&& e.mask == e.value

/-- The class table of 30_encoding.md R83, in its priority order. -/
def classTable : List ClassEntry :=
  [ ⟨.psrImm,         0x0FB0F000#32, 0x0320F000#32⟩,
    ⟨.psrReg,         0x0FB0F0F0#32, 0x0120F000#32⟩,
    ⟨.movImm,         0x0FE00000#32, 0x03A00000#32⟩,
    ⟨.movRegImmShift, 0x0FE00010#32, 0x01A00000#32⟩,
    ⟨.movRegRegShift, 0x0FE00090#32, 0x01A00010#32⟩,
    ⟨.branch,         0x0E000000#32, 0x0A000000#32⟩ ]

/-- The first entry a word matches, "in a defined priority order" (30_encoding.md R82). -/
def classify (w : Word) : Option ClassName := (classTable.find? (·.matchesWord w)).map (·.entry)

/-- The condition of a condition field (40_step_and_condition.md R105; every value is a condition). -/
def condOfBits (b : BitVec 4) : Cond :=
  match b.toNat with
  | 0 => .eq | 1 => .ne | 2 => .cs | 3 => .cc | 4 => .mi | 5 => .pl | 6 => .vs | 7 => .vc
  | 8 => .hi | 9 => .ls | 10 => .ge | 11 => .lt | 12 => .gt | 13 => .le | 14 => .al | _ => .nv

/-- The shift type of a type field (30_encoding.md R89). -/
def shiftTypeOfBits (b : BitVec 2) : ShiftType :=
  match b.toNat with
  | 0 => .lsl | 1 => .lsr | 2 => .asr | _ => .ror

/-- The register index of a 4-bit register field. -/
def regOfBits (b : BitVec 4) : Reg := ⟨b.toNat, b.isLt⟩

/-- The byte offset of a branch (30_encoding.md R87): `(sext_24(imm24) << 2) + 8`, as a 32-bit value. -/
def branchOffset (imm24 : BitVec 24) : Word := (imm24.signExtend 32 <<< 2) + 8#32

/-- The fields of a branch word (30_encoding.md R84). -/
def decodeBranch (w : Word) : Instr :=
  let cond := condOfBits (w.extractLsb' 28 4)
  let offset := branchOffset (w.extractLsb' 0 24)
  if w.getLsbD 24 then .bl cond offset else .b cond offset

/-- The fields of a Move with `I = 1` (30_encoding.md R85, R88). -/
def decodeMovImm (w : Word) : Instr :=
  .movImm (condOfBits (w.extractLsb' 28 4)) (w.getLsbD 20) (regOfBits (w.extractLsb' 12 4)) (w.extractLsb' 8 4)
    (w.extractLsb' 0 8)

/-- The fields of a Move of a register shifted by an immediate (30_encoding.md R85, R89). -/
def decodeMovRegImm (w : Word) : Instr :=
  .movRegImm (condOfBits (w.extractLsb' 28 4)) (w.getLsbD 20) (regOfBits (w.extractLsb' 12 4))
    (regOfBits (w.extractLsb' 0 4)) (shiftTypeOfBits (w.extractLsb' 5 2)) (w.extractLsb' 7 5)

/-- The fields of a Move of a register shifted by a register (30_encoding.md R85, R89). -/
def decodeMovRegReg (w : Word) : Instr :=
  .movRegReg (condOfBits (w.extractLsb' 28 4)) (w.getLsbD 20) (regOfBits (w.extractLsb' 12 4))
    (regOfBits (w.extractLsb' 0 4)) (shiftTypeOfBits (w.extractLsb' 5 2)) (regOfBits (w.extractLsb' 8 4))

/-- The fields of a status-register transfer with `I = 1` (30_encoding.md R86); bit 22 is `R`. -/
def decodePsrImm (w : Word) : Instr :=
  let cond := condOfBits (w.extractLsb' 28 4)
  if w.getLsbD 22 then .msrSpsrImm cond (w.extractLsb' 16 4) (w.extractLsb' 8 4) (w.extractLsb' 0 8)
  else .msrCpsrImm cond (w.extractLsb' 16 4) (w.extractLsb' 8 4) (w.extractLsb' 0 8)

/-- The fields of a status-register transfer with `I = 0` (30_encoding.md R86). -/
def decodePsrReg (w : Word) : Instr :=
  let cond := condOfBits (w.extractLsb' 28 4)
  if w.getLsbD 22 then .msrSpsrReg cond (w.extractLsb' 16 4) (regOfBits (w.extractLsb' 0 4))
  else .msrCpsrReg cond (w.extractLsb' 16 4) (regOfBits (w.extractLsb' 0 4))

/-- The decoded form of a word of each class (30_encoding.md R95). -/
def decodeClass (c : ClassName) (w : Word) : Instr :=
  match c with
  | .psrImm => decodePsrImm w
  | .psrReg => decodePsrReg w
  | .movImm => decodeMovImm w
  | .movRegImmShift => decodeMovRegImm w
  | .movRegRegShift => decodeMovRegReg w
  | .branch => decodeBranch w

/-- The decoder, "a pure, total function" of the word (30_encoding.md R82); `none` is the verdict *unrecognised* (R90). -/
def decode (w : Word) : Option Instr := (classify w).map (decodeClass · w)

/-- The number that bytes at ascending addresses stand for, the lowest address least significant (20_memory.md R61). -/
def leNat : List Byte → Nat
  | [] => 0
  | b :: bs => b.toNat + 256 * leNat bs

/-- The word that bytes at ascending addresses stand for (20_memory.md R57, R61). -/
def leWord (bs : List Byte) : Word := BitVec.ofNat 32 (leNat bs)

/-- The four bytes of a word at ascending addresses (20_memory.md R61). -/
def wordBytes (w : Word) : List Byte :=
  [w.extractLsb' 0 8, w.extractLsb' 8 8, w.extractLsb' 16 8, w.extractLsb' 24 8]

/-- The decoder on bytes: "exactly 4 bytes, little-endian, representing one 32-bit instruction word" (30_encoding.md R80);
anything else is rejected by name. -/
def decodeBytes (bs : List Byte) : Except DecodeReject Instr :=
  if bs.length = 4 then
    match decode (leWord bs) with
    | some i => .ok i
    | none => .error (.unrecognised (leWord bs))
  else .error (.notFourBytes bs.length)

/-- What the decoder reads from an instruction whose bits are `w`, numbered as spec/opcode_table.json numbers them. -/
def decodeTableWord (nbits w : Nat) : Option Instr :=
  match decodeBytes (wordBytes (BitVec.ofNat 32 (w % 2 ^ nbits))) with
  | .ok i => some i
  | .error _ => none

/-! ## The encoder -/

/-- The condition field of a condition (40_step_and_condition.md R105). -/
def condBits : Cond → BitVec 4
  | .eq => 0x0#4 | .ne => 0x1#4 | .cs => 0x2#4 | .cc => 0x3#4 | .mi => 0x4#4 | .pl => 0x5#4 | .vs => 0x6#4 | .vc => 0x7#4
  | .hi => 0x8#4 | .ls => 0x9#4 | .ge => 0xA#4 | .lt => 0xB#4 | .gt => 0xC#4 | .le => 0xD#4 | .al => 0xE#4 | .nv => 0xF#4

/-- The type field of a shift type (30_encoding.md R89). -/
def shiftTypeBits : ShiftType → BitVec 2
  | .lsl => 0#2 | .lsr => 1#2 | .asr => 2#2 | .ror => 3#2

/-- The 4-bit field of a register index. -/
def regBits (r : Reg) : BitVec 4 := BitVec.ofNat 4 r.val

/-- The `imm24` of an offset (30_encoding.md R96): `((offset - 8) >> 2)[23:0]`. -/
def branchImm24 (offset : Word) : BitVec 24 := (offset - 8#32).extractLsb' 2 24

/-- A field placed with its lowest bit at bit `k` of a word. -/
def placed {n : Nat} (x : BitVec n) (k : Nat) : Word := x.setWidth 32 <<< k

/-- The word of a well-formed instruction (30_encoding.md R84 to R89): the fixed bits of its row and each field in its
place. The bits the decoder ignores (R92) are written as zero (log 14). -/
def encode : Instr → Word
  | .b c offset => placed (condBits c) 28 ||| 0x0A000000#32 ||| placed (branchImm24 offset) 0
  | .bl c offset => placed (condBits c) 28 ||| 0x0B000000#32 ||| placed (branchImm24 offset) 0
  | .movImm c s rd rot imm8 =>
    placed (condBits c) 28 ||| 0x03A00000#32 ||| placed (BitVec.ofBool s) 20 ||| placed (regBits rd) 12 ||| placed rot 8
      ||| placed imm8 0
  | .movRegImm c s rd rm type amount =>
    placed (condBits c) 28 ||| 0x01A00000#32 ||| placed (BitVec.ofBool s) 20 ||| placed (regBits rd) 12 ||| placed amount 7
      ||| placed (shiftTypeBits type) 5 ||| placed (regBits rm) 0
  | .movRegReg c s rd rm type rs =>
    placed (condBits c) 28 ||| 0x01A00010#32 ||| placed (BitVec.ofBool s) 20 ||| placed (regBits rd) 12
      ||| placed (regBits rs) 8 ||| placed (shiftTypeBits type) 5 ||| placed (regBits rm) 0
  | .msrCpsrImm c f rot imm8 =>
    placed (condBits c) 28 ||| 0x0320F000#32 ||| placed f 16 ||| placed rot 8 ||| placed imm8 0
  | .msrSpsrImm c f rot imm8 =>
    placed (condBits c) 28 ||| 0x0360F000#32 ||| placed f 16 ||| placed rot 8 ||| placed imm8 0
  | .msrCpsrReg c f rm => placed (condBits c) 28 ||| 0x0120F000#32 ||| placed f 16 ||| placed (regBits rm) 0
  | .msrSpsrReg c f rm => placed (condBits c) 28 ||| 0x0160F000#32 ||| placed f 16 ||| placed (regBits rm) 0

/-- The mask of an instruction's row of spec/opcode_table.json. -/
def Instr.rowMask : Instr → Word
  | .b _ _ => 0x0F000000#32
  | .bl _ _ => 0x0F000000#32
  | .movImm _ _ _ _ _ => 0x0FE00000#32
  | .movRegImm _ _ _ _ _ _ => 0x0FE00010#32
  | .movRegReg _ _ _ _ _ _ => 0x0FE00090#32
  | .msrCpsrImm _ _ _ _ => 0x0FF0F000#32
  | .msrSpsrImm _ _ _ _ => 0x0FF0F000#32
  | .msrCpsrReg _ _ _ => 0x0FF0F0F0#32
  | .msrSpsrReg _ _ _ => 0x0FF0F0F0#32

/-- The fixed bits of an instruction's row of spec/opcode_table.json. -/
def Instr.rowMatch : Instr → Word
  | .b _ _ => 0x0A000000#32
  | .bl _ _ => 0x0B000000#32
  | .movImm _ _ _ _ _ => 0x03A00000#32
  | .movRegImm _ _ _ _ _ _ => 0x01A00000#32
  | .movRegReg _ _ _ _ _ _ => 0x01A00010#32
  | .msrCpsrImm _ _ _ _ => 0x0320F000#32
  | .msrSpsrImm _ _ _ _ => 0x0360F000#32
  | .msrCpsrReg _ _ _ => 0x0120F000#32
  | .msrSpsrReg _ _ _ => 0x0160F000#32

end Sys2Proof
end

