-- ==== Sys2Proof/Config.lean ====
section
/-! DEFINITION. What is fixed for the machine but is not state: the width and the bound that the
spec fixes, and the open parameter END_OF_RUN. `ROM_LEN` and `ROM_DATA` are arguments of `load`
(70_reset_and_hazards.md R194). No rule of the spec leaves a value undefined, so there is no free value here. -/

namespace Sys2Proof

/-- The instruction width in bytes, by which the pc advances (00_scope.md R4, 30_encoding.md R94). -/
def Config.instrBytes : Word := 4#32

/-- The greatest length of a cartridge image (20_memory.md R72: 32 MiB; D8). -/
def Config.maxRomLen : Nat := 0x02000000

/-- END_OF_RUN, the open parameter of 70_reset_and_hazards.md R200: what a model counts as the end of a run (log 24). -/
inductive Config.EndOfRun where
  /-- The word at the pc is the self-branch 0xEAFFFFFE. -/
  | selfBranch
  /-- The run ends after this many steps. -/
  | stepCount (n : Nat)
  deriving DecidableEq, Repr

end Sys2Proof
end

