-- ==== Sys2Proof/Machine/State.lean ====
section
/-! DEFINITION. The state of the machine as plain data (10_state.md R20), the reports and refusals, and the state after
reset. The field-by-field list is INVENTORY.md's State section. -/

namespace Sys2Proof.Machine

/-- The stored mode: one of six values (10_state.md R21). -/
inductive Mode where
  | system | fiq | supervisor | abort | irq | undefined
  deriving DecidableEq, Repr

/-- The mode names an interface accepts: User "denotes the value System" (10_state.md R21; log 10). -/
inductive ModeName where
  | user | system | fiq | supervisor | abort | irq | undefined
  deriving DecidableEq, Repr

/-- The four modes that have their own r13 and r14 and nothing else of their own (10_state.md R22). -/
inductive PrivMode where
  | supervisor | abort | irq | undefined
  deriving DecidableEq, Repr

/-- The five modes that have a saved status register (10_state.md R31). -/
inductive SpsrMode where
  | fiq | supervisor | abort | irq | undefined
  deriving DecidableEq, Repr

/-- The 31 general-register cells (10_state.md R22): `g i` is `G_i`, `s i` is `S_(8+i)`, `f i` is `F_(8+i)`. -/
inductive PhysCell where
  | g (i : Fin 8)
  | s (i : Fin 8)
  | f (i : Fin 7)
  | p13 (m : PrivMode)
  | p14 (m : PrivMode)
  deriving DecidableEq, Repr

/-- One cell for each of the four modes of `PrivMode`. -/
structure PrivCells where
  supervisor : Word
  abort : Word
  irq : Word
  undefined : Word
  deriving DecidableEq, Repr

/-- The five saved status registers (10_state.md R31). -/
structure SpsrCells where
  fiq : Word
  supervisor : Word
  abort : Word
  irq : Word
  undefined : Word
  deriving DecidableEq, Repr

/-- The blocks of the address map (20_memory.md R52, R53); the three cartridge windows are told apart by their base. -/
inductive BlockName where
  | bootRom | externalWorkRam | internalWorkRam | ioSpace | paletteRam | videoRam | objectAttribute | cartridgeRam
  | cartridgeRom
  deriving DecidableEq, Repr

/-- A block: "a fixed-size, fixed-base contiguous region of the emulated address space" (20_memory.md R51).
Base and size are unbounded integers, as 20_memory.md R55 computes with them. -/
structure Block where
  name : BlockName
  base : Nat
  size : Nat
  deriving DecidableEq, Repr

/-- The state of the bus (20_memory.md R51): the eight default blocks are always installed; `romLen` is the length of the
cartridge image when the three windows are installed. `cells` lists the bytes that are not zero, by ascending backing
address (a byte of the cartridge image is listed at its address in the window at 0x08000000); a byte not listed reads as
zero, the reset contents (R60; log 6). -/
structure Memory where
  romLen : Option Nat
  cells : List Host.Cell
  deriving DecidableEq, Repr

/-- The whole state (10_state.md R20). -/
structure State where
  mode : Mode
  /-- `G0` to `G7`. -/
  g : Vector Word 8
  /-- `S8` to `S15`; the last is the program counter (R24). -/
  sys : Vector Word 8
  /-- `F8` to `F14`. -/
  fiq : Vector Word 7
  p13 : PrivCells
  p14 : PrivCells
  cpsr : Word
  spsr : SpsrCells
  mem : Memory
  deriving DecidableEq, Repr

/-- The reports that end a step or a host operation (60_exceptions.md R160). Each is safe: where the source lets the
machine go on after a report, the model's step stops (log 2); `State.afterFault` is the state the report leaves. -/
inductive Fault where
  /-- The word fetched at `pc` matches no class (R161). Raised by `step`. Safe: the hardware goes on at pc + 4. -/
  | decodeMiss (pc w : Word)
  /-- MOV with S = 1 and Rd = 15, its condition passed (R162). Raised by the three Move meanings. Safe. The word that R160
  records beside the pc is in `StepOutcome` (log 3). -/
  | notImplemented (pc : Word)
  /-- An access that lies in no block or runs past the end of its block (R163). Raised by `step` at its fetch and by the
  host's read and write operations. Safe. -/
  | addressingFault (addr : Word) (len : Nat)
  /-- The SPSR is accessed in System mode (R164). Raised by the two MSR SPSR meanings and by `spsr` and `setSpsr`. Safe. -/
  | modeContextViolation
  deriving DecidableEq, Repr

/-- What has no meaning. -/
inductive Refusal where
  /-- The instruction has no meaning in the model yet. Raised by `exec`'s refused arms; there is none. Safe. -/
  | notModelled (mnemonic : String)
  /-- A bus access of length 0 (20_memory.md R71: "A model refuses a host access of length 0"). Raised by the host's read
  and write operations only, never by a step. Safe. -/
  | zeroLengthAccess
  /-- A cartridge image of more than 0x02000000 bytes (20_memory.md R72: "a model refuses it"). Raised by `load` and
  `loadCartridge` only. Safe. -/
  | imageTooLong (n : Nat)
  deriving DecidableEq, Repr

/-- The six outcomes of a step (40_step_and_condition.md R111), with what each report records (60_exceptions.md R160). -/
inductive StepOutcome where
  | executed
  | skipped
  | decodeMiss (pc w : Word)
  | notImplemented (pc w : Word)
  | addressingFault (addr : Word) (len : Nat)
  | modeContextViolation
  deriving DecidableEq, Repr

/-- The four cells zero. -/
def PrivCells.zero : PrivCells := ⟨0, 0, 0, 0⟩

/-- The five saved status registers zero. -/
def SpsrCells.zero : SpsrCells := ⟨0, 0, 0, 0, 0⟩

/-- The bus after its `reset()` (20_memory.md R60): eight default blocks of zeros, no cartridge window. -/
def Memory.initial : Memory := ⟨none, []⟩

/-- The state after construction and after a system reset (10_state.md R36, 70_reset_and_hazards.md R190, R192). -/
def State.reset : State where
  mode := .system
  g := Vector.replicate 8 0
  sys := Vector.replicate 8 0
  fiq := Vector.replicate 7 0
  p13 := PrivCells.zero
  p14 := PrivCells.zero
  cpsr := 0
  spsr := SpsrCells.zero
  mem := Memory.initial

end Sys2Proof.Machine
end

