-- ==== Sys2Proof/Machine/Ops.lean ====
section
/-! DEFINITION. The named operations over the memory bus and the register file, which every instruction and every host
operation goes through, and what a report leaves. -/

namespace Sys2Proof.Machine

/-! ## The address map (20_memory.md section 1) -/

/-- The base of the primary cartridge-ROM window (20_memory.md R53, R70). -/
def romBase : Nat := 0x08000000

/-- The address after the primary window's greatest extent, the base of the second window (20_memory.md R72). -/
def romEnd : Nat := 0x0A000000

/-- The default blocks below the cartridge windows, by ascending base (20_memory.md R52). -/
def blocksBelowRom : List Block :=
  [ ⟨.bootRom,         0x00000000, 0x00004000⟩,
    ⟨.externalWorkRam, 0x02000000, 0x00040000⟩,
    ⟨.internalWorkRam, 0x03000000, 0x00008000⟩,
    ⟨.ioSpace,         0x04000000, 0x00000400⟩,
    ⟨.paletteRam,      0x05000000, 0x00000400⟩,
    ⟨.videoRam,        0x06000000, 0x00018000⟩,
    ⟨.objectAttribute, 0x07000000, 0x00000400⟩ ]

/-- The default block above the cartridge windows (20_memory.md R52). -/
def blocksAboveRom : List Block := [⟨.cartridgeRam, 0x0E000000, 0x00010000⟩]

/-- The three windows of a cartridge image of `n` bytes (20_memory.md R53). -/
def romWindows (n : Nat) : List Block :=
  [⟨.cartridgeRom, 0x08000000, n⟩, ⟨.cartridgeRom, 0x0A000000, n⟩, ⟨.cartridgeRom, 0x0C000000, n⟩]

/-- The installed blocks by ascending base: the eight of 20_memory.md R52, and the windows of R53 once an image is loaded. -/
def Memory.blocks (m : Memory) : List Block :=
  match m.romLen with
  | none => blocksBelowRom ++ blocksAboveRom
  | some n => blocksBelowRom ++ romWindows n ++ blocksAboveRom

/-! ## Resolution and bounds (20_memory.md section 2) -/

/-- Of the blocks whose base is at most `a`, the one with the greatest base; the first of them where two share it. -/
def greatestBase (a : Nat) : List Block → Option Block
  | [] => none
  | b :: bs =>
    match greatestBase a bs with
    | none => if b.base ≤ a then some b else none
    | some c => if b.base ≤ a ∧ c.base ≤ b.base then some b else some c

/-- "selecting the block with the greatest base ≤ the queried address" (20_memory.md R54); the length plays no part. -/
def Memory.resolve (m : Memory) (addr : Word) : Option Block := greatestBase addr.toNat m.blocks

/-- An access lies in a block: `b.base <= addr and (addr - b.base) + len <= b.size` in unbounded integers (20_memory.md
R55, the inclusive end; log 8). -/
def Block.inRange (b : Block) (addr : Word) (len : Nat) : Bool :=
  decide (b.base ≤ addr.toNat) && decide (addr.toNat - b.base + len ≤ b.size)

/-- The block that serves an access, or `none` where the bus answers OutOfRange (20_memory.md R54, R55). -/
def Memory.owner (m : Memory) (addr : Word) (len : Nat) : Option Block :=
  (m.resolve addr).filter (·.inRange addr len)

/-- The address under which byte `a` of a block is listed: its own, but for a cartridge window, whose byte `k` is listed at
`romBase + k` whichever window names it (20_memory.md R53: three windows, one buffer; log 6, log 7). -/
def Block.backing (b : Block) (a : Nat) : Nat :=
  match b.name with
  | .cartridgeRom => romBase + (a - b.base)
  | _ => a

/-- An address under which a byte of an installed block is listed. -/
def Memory.backs (m : Memory) (k : Nat) : Bool :=
  (blocksBelowRom ++ blocksAboveRom).any (fun b => decide (b.base ≤ k) && decide (k < b.base + b.size)) ||
    match m.romLen with
    | none => false
    | some n => decide (romBase ≤ k) && decide (k < romBase + n)

/-- The one canonical form of a memory (log 6): addresses strictly rising, no zero byte listed, every listed address that
of a byte of an installed block, and an image length within 20_memory.md R72. -/
abbrev Memory.wf (m : Memory) : Prop :=
  m.cells.Pairwise (fun a b => a.1 < b.1) ∧
  (∀ c ∈ m.cells, c.2 ≠ 0#8 ∧ m.backs c.1 = true) ∧
  (∀ n ∈ m.romLen, n ≤ Config.maxRomLen)

/-! ## The bytes (20_memory.md R51, R66) -/

/-- What an address that is not listed reads as: the reset contents (20_memory.md R60: "every byte of every one is 0x00"). -/
def unlistedByte : Byte := 0#8

/-- The byte listed at `k`. -/
def byteAt (k : Nat) : List Host.Cell → Byte
  | [] => unlistedByte
  | (a, b) :: cs => if a = k then b else byteAt k cs

/-- The cells with `b` at `k`, in canonical form: a zero byte removes the entry. -/
def setByte (k : Nat) (b : Byte) : List Host.Cell → List Host.Cell
  | [] => if b = unlistedByte then [] else [(k, b)]
  | (a, c) :: cs =>
    if a < k then (a, c) :: setByte k b cs
    else if a = k then (if b = unlistedByte then cs else (k, b) :: cs)
    else (if b = unlistedByte then (a, c) :: cs else (k, b) :: (a, c) :: cs)

/-- The cells with the bytes at `k`, `k + 1`, ... -/
def setBytes (k : Nat) : List Byte → List Host.Cell → List Host.Cell
  | [], cs => cs
  | b :: bs, cs => setBytes (k + 1) bs (setByte k b cs)

/-- The cells that list bytes at `k`, `k + 1`, ..., the zero bytes left out. -/
def cellsOf (k : Nat) : List Byte → List Host.Cell
  | [] => []
  | b :: bs => if b = unlistedByte then cellsOf (k + 1) bs else (k, b) :: cellsOf (k + 1) bs

/-- `len` bytes from `k`, by ascending address. -/
def bytesAt (k : Nat) (cs : List Host.Cell) : Nat → List Byte
  | 0 => []
  | n + 1 => byteAt k cs :: bytesAt (k + 1) cs n

/-! ## The bus operations (20_memory.md section 3) -/

/-- `read(addr, len)` (20_memory.md R56); a length of 0 is refused (R71). -/
def Memory.read (m : Memory) (addr : Word) (len : Nat) : Host.Outcome (List Byte) Fault Refusal :=
  if len = 0 then .refused .zeroLengthAccess
  else
    match m.owner addr len with
    | none => .fault (.addressingFault addr len)
    | some b => .next (bytesAt (b.backing addr.toNat) m.cells len)

/-- `read_u32(addr)` (20_memory.md R57): four bytes, little-endian, at any address (R62). -/
def Memory.readU32 (m : Memory) (addr : Word) : Host.Outcome Word Fault Refusal :=
  match m.read addr 4 with
  | .next bs => .next (leWord bs)
  | .fault r => .fault r
  | .refused r => .refused r

/-- `write(addr, bytes)` (20_memory.md R58): the same resolution and bounds check as `read`; a failed write writes nothing,
and no block is write-protected (log 7). No bytes is refused (R71). -/
def Memory.write (m : Memory) (addr : Word) (bs : List Byte) : Host.Outcome Memory Fault Refusal :=
  if bs.length = 0 then .refused .zeroLengthAccess
  else
    match m.owner addr bs.length with
    | none => .fault (.addressingFault addr bs.length)
    | some b => .next { m with cells := setBytes (b.backing addr.toNat) bs m.cells }

/-- `load_cartridge(data)` (20_memory.md R59): the three windows over one buffer initialised to `data`, an earlier buffer
discarded, no other block changed; an image beyond R72 is refused. -/
def Memory.loadCartridge (m : Memory) (data : List Byte) : Host.Outcome Memory Fault Refusal :=
  if data.length ≤ Config.maxRomLen then
    .next { romLen := some data.length
            cells := m.cells.filter (fun c => decide (c.1 < romBase)) ++ cellsOf romBase data
              ++ m.cells.filter (fun c => decide (romEnd ≤ c.1)) }
  else .refused (.imageTooLong data.length)

/-- The bus `reset()` (20_memory.md R60), whatever was there before. -/
def Memory.busReset (_ : Memory) : Memory := Memory.initial

/-! ## The register file (10_state.md sections 2 to 5) -/

/-- The private cells of a mode, if it has any besides the FIQ bank (10_state.md R22). -/
def Mode.priv? : Mode → Option PrivMode
  | .system => none
  | .fiq => none
  | .supervisor => some .supervisor
  | .abort => some .abort
  | .irq => some .irq
  | .undefined => some .undefined

/-- The physical cell of a logical index under a mode (10_state.md R23). -/
def phys (m : Mode) (i : Reg) : PhysCell :=
  if h : i.val < 8 then .g ⟨i.val, h⟩
  else if i = 15 then .s 7
  else if h : m = .fiq ∧ i.val - 8 < 7 then .f ⟨i.val - 8, h.2⟩
  else
    match m.priv? with
    | some p => if i = 13 then .p13 p else if i = 14 then .p14 p else .s ⟨i.val - 8, by omega⟩
    | none => .s ⟨i.val - 8, by omega⟩

def PrivCells.get (p : PrivCells) : PrivMode → Word
  | .supervisor => p.supervisor
  | .abort => p.abort
  | .irq => p.irq
  | .undefined => p.undefined

def PrivCells.set (p : PrivCells) (m : PrivMode) (v : Word) : PrivCells :=
  match m with
  | .supervisor => { p with supervisor := v }
  | .abort => { p with abort := v }
  | .irq => { p with irq := v }
  | .undefined => { p with undefined := v }

def SpsrCells.get (p : SpsrCells) : SpsrMode → Word
  | .fiq => p.fiq
  | .supervisor => p.supervisor
  | .abort => p.abort
  | .irq => p.irq
  | .undefined => p.undefined

def SpsrCells.set (p : SpsrCells) (m : SpsrMode) (v : Word) : SpsrCells :=
  match m with
  | .fiq => { p with fiq := v }
  | .supervisor => { p with supervisor := v }
  | .abort => { p with abort := v }
  | .irq => { p with irq := v }
  | .undefined => { p with undefined := v }

/-- The content of a cell. -/
def State.readCell (s : State) : PhysCell → Word
  | .g i => s.g[i.val]
  | .s i => s.sys[i.val]
  | .f i => s.fiq[i.val]
  | .p13 m => s.p13.get m
  | .p14 m => s.p14.get m

/-- The state with one cell replaced. -/
def State.writeCell (s : State) (c : PhysCell) (v : Word) : State :=
  match c with
  | .g i => { s with g := s.g.set i.val v }
  | .s i => { s with sys := s.sys.set i.val v }
  | .f i => { s with fiq := s.fiq.set i.val v }
  | .p13 m => { s with p13 := s.p13.set m v }
  | .p14 m => { s with p14 := s.p14.set m v }

/-- `get(i)` (10_state.md R25): the stored content, no offset applied to r15 (log 18). -/
def State.get (s : State) (i : Reg) : Word := s.readCell (phys s.mode i)

/-- `set(i, v)` (10_state.md R26): any value, r15 included (log 9). -/
def State.set (s : State) (i : Reg) (v : Word) : State := s.writeCell (phys s.mode i) v

/-- The program counter: r15, the cell `S15` in every mode (10_state.md R24, R38). -/
def State.pc (s : State) : Word := s.get 15

/-- A write of the program counter. -/
def State.setPc (s : State) (v : Word) : State := s.set 15 v

/-- `pc <- old_pc +32 4` (40_step_and_condition.md R107, R108): modulo 2^32 (log 13). -/
def State.advance (s : State) : State := s.setPc (s.pc + Config.instrBytes)

/-- The state with another CPSR: `set_cpsr(v)`, "unconditional, valid in every mode" (10_state.md R28); the mode does not
follow (R30; log 11). -/
def State.withCpsr (s : State) (v : Word) : State := { s with cpsr := v }

/-- The state with another mode. -/
def State.withMode (s : State) (m : Mode) : State := { s with mode := m }

/-- The state with another memory. -/
def State.withMem (s : State) (m : Memory) : State := { s with mem := m }

/-- The stored mode a name denotes (10_state.md R21; log 10). -/
def ModeName.stored : ModeName → Mode
  | .user => .system
  | .system => .system
  | .fiq => .fiq
  | .supervisor => .supervisor
  | .abort => .abort
  | .irq => .irq
  | .undefined => .undefined

/-- `set_mode(m)` (10_state.md R27): nothing else changes, no status register is saved or restored (log 12). -/
def State.setMode (s : State) (m : ModeName) : State := s.withMode m.stored

/-- The saved status register a mode sees; System sees none (10_state.md R31). -/
def Mode.spsr? : Mode → Option SpsrMode
  | .system => none
  | .fiq => some .fiq
  | .supervisor => some .supervisor
  | .abort => some .abort
  | .irq => some .irq
  | .undefined => some .undefined

/-- The content of one saved status register. -/
def State.readSpsr (s : State) (m : SpsrMode) : Word := s.spsr.get m

/-- The state with one saved status register replaced. -/
def State.writeSpsr (s : State) (m : SpsrMode) (v : Word) : State := { s with spsr := s.spsr.set m v }

/-- `spsr()` (10_state.md R32). -/
def State.getSpsr (s : State) : Host.Outcome Word Fault Refusal :=
  match s.mode.spsr? with
  | none => .fault .modeContextViolation
  | some m => .next (s.readSpsr m)

/-- `set_spsr(v)` (10_state.md R32). -/
def State.setSpsr (s : State) (v : Word) : Host.Outcome State Fault Refusal :=
  match s.mode.spsr? with
  | none => .fault .modeContextViolation
  | some m => .next (s.writeSpsr m v)

/-- The register file's `reset()` (70_reset_and_hazards.md R191): every element of 10_state.md R36 at its table value; the
bus is not touched. -/
def State.resetRegisters (s : State) : State := State.reset.withMem s.mem

/-- The bus `reset()` (20_memory.md R60); the register file is not touched. -/
def State.resetBus (s : State) : State := s.withMem s.mem.busReset

/-- The system reset: both component resets (70_reset_and_hazards.md R192; log 22). -/
def State.systemReset (s : State) : State := s.resetRegisters.resetBus

/-- `load(rom_bytes)` (70_reset_and_hazards.md R194): the windows are installed, then `S15 <- 0x08000000`; nothing else
changes (log 22). -/
def State.load (s : State) (image : List Byte) : Host.Outcome State Fault Refusal :=
  match s.mem.loadCartridge image with
  | .next m => .next ((s.withMem m).setPc 0x08000000#32)
  | .fault r => .fault r
  | .refused r => .refused r

/-! ## Parts of the step -/

/-- The fetch (40_step_and_condition.md R101): the four bytes at exactly the pc, no alignment applied (log 9). -/
def State.fetch (s : State) : Host.Outcome Word Fault Refusal := s.mem.readU32 s.pc

/-- The end of a step whose word is unrecognised (40_step_and_condition.md R103, 60_exceptions.md R161; log 2). -/
def decodeMissReport (s : State) (w : Word) : Host.Outcome State Fault Refusal := .fault (.decodeMiss s.pc w)

/-- TAKING A REPORT, the one thing this hardware does where another would take an exception (60_exceptions.md R166: no
state is saved, no mode changes, control goes nowhere): the state that a report of a step leaves ("state after",
60_exceptions.md R160). Only `DecodeMiss` moves the pc. There is no return from it (R170). -/
def State.afterFault (s : State) : Fault → State
  | .decodeMiss _ _ => s.advance
  | .notImplemented _ => s
  | .addressingFault _ _ => s
  | .modeContextViolation => s

/-- The state with a word stored where the next step fetches: at the pc where the bus maps four bytes there, else at
address 0 with the pc moved to it (log 25). -/
def State.placeWord (s : State) (w : Word) : State :=
  match s.mem.write s.pc (wordBytes w) with
  | .next m => s.withMem m
  | .fault _ => (s.setPc 0#32).withMem { s.mem with cells := setBytes 0 (wordBytes w) s.mem.cells }
  | .refused _ => s

end Sys2Proof.Machine
end

