-- ==== Sys2Proof/Machine/Operands.lean ====
section
/-! DEFINITION. The operands: rotated immediates (30_encoding.md R88) and the barrel shifter with its carry-out
(42_move.md R133; log 19). -/

namespace Sys2Proof.Machine

/-- `ROR32(v, n)` (00_scope.md section 6): `((v >> k) | (v << (32 - k))) mod 2^32` with `k = n mod 32`, `v` when `k = 0`. -/
def ror32 (v : Word) (n : Nat) : Word :=
  if n % 32 = 0 then v else (v >>> (n % 32)) ||| (v <<< (32 - n % 32))

/-- `asr(v, n)` (42_move.md R133): a right shift that fills with copies of bit 31. -/
def asr32 (v : Word) (n : Nat) : Word := v.sshiftRight n

/-- The rotated immediate (30_encoding.md R88): `ROR32(zext_8(imm8), 2 * rot)`. -/
def rotatedImm (rot : BitVec 4) (imm8 : BitVec 8) : Word := ror32 (imm8.setWidth 32) (2 * rot.toNat)

/-- The immediate form of the shifter operand and its carry-out (42_move.md R131, R133): the carry is unchanged when
`rot = 0`, else bit 31 of the value. -/
def shiftRotatedImm (rot : BitVec 4) (imm8 : BitVec 8) (c : Bool) : Word × Bool :=
  (rotatedImm rot imm8, if rot = 0#4 then c else (rotatedImm rot imm8).getLsbD 31)

/-- `ShiftImm(rm, type, n, C)` (42_move.md R133): an amount of 0 means no shift for LSL, a shift by 32 for LSR and ASR, and
RRX for ROR. -/
def shiftImm (rm : Word) (type : ShiftType) (amount : BitVec 5) (c : Bool) : Word × Bool :=
  let n := amount.toNat
  match type with
  | .lsl => if n = 0 then (rm, c) else (rm <<< n, rm.getLsbD (32 - n))
  | .lsr => if n = 0 then (0#32, rm.getLsbD 31) else (rm >>> n, rm.getLsbD (n - 1))
  | .asr => if n = 0 then (if rm.getLsbD 31 then 0xFFFFFFFF#32 else 0#32, rm.getLsbD 31) else (asr32 rm n, rm.getLsbD (n - 1))
  | .ror => if n = 0 then (bitAt c 31 ||| (rm >>> 1), rm.getLsbD 0) else (ror32 rm n, rm.getLsbD (n - 1))

/-- `ShiftReg(rm, type, a, C)` (42_move.md R133) with `a` the low byte of Rs, 0 to 255. -/
def shiftReg (rm : Word) (type : ShiftType) (amount : BitVec 8) (c : Bool) : Word × Bool :=
  let a := amount.toNat
  if a = 0 then (rm, c)
  else
    match type with
    | .lsl => if a ≤ 31 then (rm <<< a, rm.getLsbD (32 - a)) else if a = 32 then (0#32, rm.getLsbD 0) else (0#32, false)
    | .lsr => if a ≤ 31 then (rm >>> a, rm.getLsbD (a - 1)) else if a = 32 then (0#32, rm.getLsbD 31) else (0#32, false)
    | .asr =>
      if a ≤ 31 then (asr32 rm a, rm.getLsbD (a - 1))
      else (if rm.getLsbD 31 then 0xFFFFFFFF#32 else 0#32, rm.getLsbD 31)
    | .ror => if a % 32 = 0 then (rm, rm.getLsbD 31) else (ror32 rm (a % 32), rm.getLsbD (a % 32 - 1))

/-- `ShifterOperand` (42_move.md R133): value and carry-out; it reads registers through the current mode, r15 without bias
(R137; log 18), and writes nothing. The carry-in is `CPSR[29]`. -/
def shifterOperand (op : ShifterOperand) (s : State) : Word × Bool :=
  let c := s.cpsr.getLsbD 29
  match op with
  | .imm rot imm8 => shiftRotatedImm rot imm8 c
  | .regImmShift rm type amount => shiftImm (s.get rm) type amount c
  | .regRegShift rm type rs => shiftReg (s.get rm) type ((s.get rs).extractLsb' 0 8) c

/-- The operand of a status-register transfer (43_psr_transfer.md R150, R152). -/
def psrOperand (src : PsrSource) (s : State) : Word :=
  match src with
  | .imm rot imm8 => rotatedImm rot imm8
  | .reg rm => s.get rm

end Sys2Proof.Machine
end

