-- ==== Sys2Proof/Machine/Flags.lean ====
section
/-! DEFINITION. The flags and the status-register fields: the condition evaluator (40_step_and_condition.md R105), the
flag rule of a Move (42_move.md R134) and the byte mask of a transfer (43_psr_transfer.md R154). -/

namespace Sys2Proof.Machine

/-- The flags of a status register (10_state.md R29: N, Z, C, V are bits 31, 30, 29, 28; log 21). -/
def flagN (psr : Word) : Bool := psr.getLsbD 31
def flagZ (psr : Word) : Bool := psr.getLsbD 30
def flagC (psr : Word) : Bool := psr.getLsbD 29
def flagV (psr : Word) : Bool := psr.getLsbD 28

/-- `ConditionPassed(cond, CPSR)` (40_step_and_condition.md R105; log 15). -/
def conditionPassed (c : Cond) (cpsr : Word) : Bool :=
  match c with
  | .eq => flagZ cpsr
  | .ne => !flagZ cpsr
  | .cs => flagC cpsr
  | .cc => !flagC cpsr
  | .mi => flagN cpsr
  | .pl => !flagN cpsr
  | .vs => flagV cpsr
  | .vc => !flagV cpsr
  | .hi => flagC cpsr && !flagZ cpsr
  | .ls => !flagC cpsr || flagZ cpsr
  | .ge => flagN cpsr == flagV cpsr
  | .lt => flagN cpsr != flagV cpsr
  | .gt => !flagZ cpsr && (flagN cpsr == flagV cpsr)
  | .le => flagZ cpsr || (flagN cpsr != flagV cpsr)
  | .al => true
  | .nv => false

/-- The CPSR after a Move with S = 1 (42_move.md R134, its one assignment): V and bits 27 to 0 are kept. -/
def moveFlags (value : Word) (carry : Bool) (cpsr : Word) : Word :=
  bitAt (value.getLsbD 31) 31 ||| bitAt (value == 0#32) 30 ||| bitAt carry 29 ||| (cpsr &&& 0x1FFFFFFF#32)

/-- `ByteMask(field_mask)` (43_psr_transfer.md R154). -/
def byteMask (f : BitVec 4) : Word :=
  (if f.getLsbD 0 then 0x000000FF#32 else 0#32) ||| (if f.getLsbD 1 then 0x0000FF00#32 else 0#32) |||
    (if f.getLsbD 2 then 0x00FF0000#32 else 0#32) ||| (if f.getLsbD 3 then 0xFF000000#32 else 0#32)

/-- A status register written through the mask (43_psr_transfer.md R154). -/
def maskedWrite (f : BitVec 4) (psr op : Word) : Word := (psr &&& ~~~(byteMask f)) ||| (op &&& byteMask f)

end Sys2Proof.Machine
end

