-- ==== Sys2Proof/Machine/Conditional.lean ====
section
/-! DEFINITION. The condition test that stands before every instruction's effect (40_step_and_condition.md R100, R104,
R106). -/

namespace Sys2Proof.Machine

/-- The effect where the condition passes; else only the pc advances: a skipped instruction reads no operand and raises no
report (40_step_and_condition.md R106). -/
def conditionally (c : Cond) (s : State) (effect : State → Host.Outcome State Fault Refusal) :
    Host.Outcome State Fault Refusal :=
  if conditionPassed c s.cpsr then effect s else .next s.advance

end Sys2Proof.Machine
end

