-- ==== Sys2Proof/Machine/Branch.lean ====
section
/-! DEFINITION. The branch family: `B` and `BL` (41_branch.md). -/

namespace Sys2Proof.Machine

/-- The effect of `B` (41_branch.md R120): `pc <- old_pc +32 offset`; a redirect, so no 4 is added. -/
def branch (offset : Word) (s : State) : Host.Outcome State Fault Refusal := .next (s.setPc (s.pc + offset))

/-- The effect of `BL` (41_branch.md R121, R123): r14 of the current mode gets the address of the BL itself (log 23). -/
def branchLink (offset : Word) (s : State) : Host.Outcome State Fault Refusal :=
  .next ((s.set 14 s.pc).setPc (s.pc + offset))

/-- `B` (41_branch.md R120). -/
def execB (cond : Cond) (offset : Word) (s : State) : Host.Outcome State Fault Refusal :=
  conditionally cond s (branch offset)

/-- `BL` (41_branch.md R121). -/
def execBl (cond : Cond) (offset : Word) (s : State) : Host.Outcome State Fault Refusal :=
  conditionally cond s (branchLink offset)

end Sys2Proof.Machine
end

