-- ==== Sys2Proof/Machine/Move.lean ====
section
/-! DEFINITION. The move family: `MOV` in its three encodings (42_move.md). -/

namespace Sys2Proof.Machine

/-- The writes of a Move (42_move.md R130): the destination, then the flags where S = 1 (R134), then the pc unless r15 was
the destination (40_step_and_condition.md R107; log 17). `vc` is the operand's value and carry-out, read before. -/
def moveResult (setFlags : Bool) (rd : Reg) (vc : Word × Bool) (s : State) : State :=
  let written := s.set rd vc.1
  let flagged := if setFlags then written.withCpsr (moveFlags vc.1 vc.2 s.cpsr) else written
  if rd = 15 then flagged else flagged.setPc (s.pc + Config.instrBytes)

/-- The common execution rule of a Move (42_move.md R130); S = 1 with Rd = 15 is recognised and not implemented (R136;
log 20), and reports before anything is written. -/
def move (setFlags : Bool) (rd : Reg) (op : ShifterOperand) (s : State) : Host.Outcome State Fault Refusal :=
  if setFlags = true ∧ rd = 15 then .fault (.notImplemented s.pc)
  else .next (moveResult setFlags rd (shifterOperand op s) s)

/-- `MOV{S} Rd, #imm` (42_move.md R131). -/
def execMovImm (cond : Cond) (setFlags : Bool) (rd : Reg) (rot : BitVec 4) (imm8 : BitVec 8) (s : State) :
    Host.Outcome State Fault Refusal :=
  conditionally cond s (move setFlags rd (.imm rot imm8))

/-- `MOV{S} Rd, Rm, <shift> #n` (42_move.md R132). -/
def execMovRegImm (cond : Cond) (setFlags : Bool) (rd rm : Reg) (type : ShiftType) (amount : BitVec 5) (s : State) :
    Host.Outcome State Fault Refusal :=
  conditionally cond s (move setFlags rd (.regImmShift rm type amount))

/-- `MOV{S} Rd, Rm, <shift> Rs` (42_move.md R138). -/
def execMovRegReg (cond : Cond) (setFlags : Bool) (rd rm : Reg) (type : ShiftType) (rs : Reg) (s : State) :
    Host.Outcome State Fault Refusal :=
  conditionally cond s (move setFlags rd (.regRegShift rm type rs))

end Sys2Proof.Machine
end

