-- ==== Sys2Proof/Machine/PsrTransfer.lean ====
section
/-! DEFINITION. The status-register transfer family: `MSR` to CPSR or to the SPSR of the current mode, from an immediate or
a register (43_psr_transfer.md). -/

namespace Sys2Proof.Machine

/-- A transfer to CPSR (43_psr_transfer.md R150, R152): every mode may, every bit of a selected byte is written, and the
mode does not follow (R155; log 11, log 21). -/
def transferCpsr (f : BitVec 4) (src : PsrSource) (s : State) : Host.Outcome State Fault Refusal :=
  .next (s.withCpsr (maskedWrite f s.cpsr (psrOperand src s))).advance

/-- A transfer to the SPSR of the current mode (43_psr_transfer.md R151, R153): in System mode it reports, whatever the
mask, before anything is written (R156). -/
def transferSpsr (f : BitVec 4) (src : PsrSource) (s : State) : Host.Outcome State Fault Refusal :=
  match s.mode.spsr? with
  | none => .fault .modeContextViolation
  | some m => .next (s.writeSpsr m (maskedWrite f (s.readSpsr m) (psrOperand src s))).advance

/-- `MSR CPSR_<fields>, #imm` (43_psr_transfer.md R150). -/
def execMsrCpsrImm (cond : Cond) (f : BitVec 4) (rot : BitVec 4) (imm8 : BitVec 8) (s : State) :
    Host.Outcome State Fault Refusal :=
  conditionally cond s (transferCpsr f (.imm rot imm8))

/-- `MSR SPSR_<fields>, #imm` (43_psr_transfer.md R151). -/
def execMsrSpsrImm (cond : Cond) (f : BitVec 4) (rot : BitVec 4) (imm8 : BitVec 8) (s : State) :
    Host.Outcome State Fault Refusal :=
  conditionally cond s (transferSpsr f (.imm rot imm8))

/-- `MSR CPSR_<fields>, Rm` (43_psr_transfer.md R152). -/
def execMsrCpsrReg (cond : Cond) (f : BitVec 4) (rm : Reg) (s : State) : Host.Outcome State Fault Refusal :=
  conditionally cond s (transferCpsr f (.reg rm))

/-- `MSR SPSR_<fields>, Rm` (43_psr_transfer.md R153). -/
def execMsrSpsrReg (cond : Cond) (f : BitVec 4) (rm : Reg) (s : State) : Host.Outcome State Fault Refusal :=
  conditionally cond s (transferSpsr f (.reg rm))

end Sys2Proof.Machine
end

