-- ==== Sys2Proof/Machine/Dispatch.lean ====
section
/-! DEFINITION. The meaning of each instruction, one arm each. -/

namespace Sys2Proof.Machine

def exec (i : Instr) (s : State) : Host.Outcome State Fault Refusal :=
  match i with
  | .b cond offset => Sys2Proof.Machine.execB cond offset s
  | .bl cond offset => Sys2Proof.Machine.execBl cond offset s
  | .movImm cond setFlags rd rot imm8 => Sys2Proof.Machine.execMovImm cond setFlags rd rot imm8 s
  | .movRegImm cond setFlags rd rm type amount => Sys2Proof.Machine.execMovRegImm cond setFlags rd rm type amount s
  | .movRegReg cond setFlags rd rm type rs => Sys2Proof.Machine.execMovRegReg cond setFlags rd rm type rs s
  | .msrCpsrImm cond f rot imm8 => Sys2Proof.Machine.execMsrCpsrImm cond f rot imm8 s
  | .msrSpsrImm cond f rot imm8 => Sys2Proof.Machine.execMsrSpsrImm cond f rot imm8 s
  | .msrCpsrReg cond f rm => Sys2Proof.Machine.execMsrCpsrReg cond f rm s
  | .msrSpsrReg cond f rm => Sys2Proof.Machine.execMsrSpsrReg cond f rm s

end Sys2Proof.Machine
end

