-- ==== Sys2Proof/Machine/Step.lean ====
section
/-! DEFINITION. One step (40_step_and_condition.md R100). The condition test and the pc update stand inside the meanings
(log 29). -/

namespace Sys2Proof.Machine

/-- `step()` (40_step_and_condition.md R100): fetch, decode, execute; a report ends it (log 2). -/
def step (s : State) : Host.Outcome State Fault Refusal :=
  match s.fetch with
  | .fault r => .fault r
  | .refused r => .refused r
  | .next w =>
    match decode w with
    | none => decodeMissReport s w
    | some i => exec i s

/-- The state with an instruction stored where `step` fetches its next one (log 25). -/
def State.withFetchWord (s : State) (nbits w : Nat) : State := s.placeWord (BitVec.ofNat 32 (w % 2 ^ nbits))

end Sys2Proof.Machine
end

