-- ==== Sys2Proof/Machine/HostInterface.lean ====
section
/-! DEFINITION. The rest of the machine's interface (00_scope.md R5): the six outcomes of a step beside the state it leaves,
and every host operation as one transition (log 1). -/

namespace Sys2Proof.Machine

/-- The outcome of a step whose word is recognised (40_step_and_condition.md R100, R111). `exec` refuses no instruction; an
operation without a meaning would be reported as R110 says. -/
def executionOutcome (i : Instr) (w : Word) (s : State) : StepOutcome :=
  match exec i s with
  | .next _ => if conditionPassed i.cond s.cpsr then .executed else .skipped
  | .fault (.decodeMiss pc w) => .decodeMiss pc w
  | .fault (.notImplemented pc) => .notImplemented pc w
  | .fault (.addressingFault addr len) => .addressingFault addr len
  | .fault .modeContextViolation => .modeContextViolation
  | .refused _ => .notImplemented s.pc w

/-- Which of the six outcomes a step has, with what each report records (40_step_and_condition.md R111, 60_exceptions.md
R160). -/
def outcomeOf (s : State) : StepOutcome :=
  match s.fetch with
  | .next w =>
    match decode w with
    | none => .decodeMiss s.pc w
    | some i => executionOutcome i w s
  | _ => .addressingFault s.pc 4

/-- The state a step leaves, a report included (60_exceptions.md R160, "state after"). -/
def stateAfterStep (s : State) : State :=
  match step s with
  | .next t => t
  | .fault r => s.afterFault r
  | .refused _ => s

/-- A step "has exactly one of six outcomes, which a model returns beside the new state" (40_step_and_condition.md R111). -/
def stepOutcome (s : State) : StepOutcome × State := (outcomeOf s, stateAfterStep s)

/-- The operations of the block's interface, a closed set (00_scope.md R5). An index outside 0 to 15 cannot be written
(10_state.md R34; log 4). -/
inductive HostOp where
  | construction
  | resetRegisters
  | resetBus
  | systemReset
  | load (image : List Byte)
  | step
  | getRegister (i : Reg)
  | setRegister (i : Reg) (v : Word)
  | mode
  | setMode (m : ModeName)
  | cpsr
  | setCpsr (v : Word)
  | spsr
  | setSpsr (v : Word)
  | read (addr : Word) (len : Nat)
  | readU32 (addr : Word)
  | write (addr : Word) (bytes : List Byte)
  | loadCartridge (image : List Byte)
  deriving DecidableEq, Repr

/-- What a host operation returns. -/
inductive OpResult where
  | done
  | word (w : Word)
  | bytes (bs : List Byte)
  | modeIs (m : Mode)
  | stepped (o : StepOutcome)
  | report (r : Fault)
  | refused (r : Refusal)
  deriving DecidableEq, Repr

/-- A query: its value or report, the state as it was. -/
def answer {α : Type} (wrap : α → OpResult) (o : Host.Outcome α Fault Refusal) (s : State) : OpResult × State :=
  match o with
  | .next a => (wrap a, s)
  | .fault r => (.report r, s)
  | .refused r => (.refused r, s)

/-- A command: the state it makes, or its report with the state as it was. -/
def command (o : Host.Outcome State Fault Refusal) (s : State) : OpResult × State :=
  match o with
  | .next t => (.done, t)
  | .fault r => (.report r, s)
  | .refused r => (.refused r, s)

/-- A command on the bus. -/
def busCommand (o : Host.Outcome Memory Fault Refusal) (s : State) : OpResult × State :=
  match o with
  | .next m => (.done, s.withMem m)
  | .fault r => (.report r, s)
  | .refused r => (.refused r, s)

/-- Each operation as one atomic and total transition (00_scope.md R5), by the rule that its table names. -/
def performOp (op : HostOp) (s : State) : OpResult × State :=
  match op with
  | .construction => (.done, State.reset)
  | .resetRegisters => (.done, s.resetRegisters)
  | .resetBus => (.done, s.resetBus)
  | .systemReset => (.done, s.systemReset)
  | .load image => command (s.load image) s
  | .step => (.stepped (outcomeOf s), stateAfterStep s)
  | .getRegister i => (.word (s.get i), s)
  | .setRegister i v => (.done, s.set i v)
  | .mode => (.modeIs s.mode, s)
  | .setMode m => (.done, s.setMode m)
  | .cpsr => (.word s.cpsr, s)
  | .setCpsr v => (.done, s.withCpsr v)
  | .spsr => answer .word s.getSpsr s
  | .setSpsr v => command (s.setSpsr v) s
  | .read addr len => answer .bytes (s.mem.read addr len) s
  | .readU32 addr => answer .word (s.mem.readU32 addr) s
  | .write addr bytes => busCommand (s.mem.write addr bytes) s
  | .loadCartridge image => busCommand (s.mem.loadCartridge image) s

end Sys2Proof.Machine
end

