-- ==== Sys2Proof/Safety.lean ====
section
/-! DEFINITION. The terms in which claims speak of a step and of a run: what stays as it was, what a mode can see, the
invariant of the memory, and a run that meets no report (70_reset_and_hazards.md R200). -/

namespace Sys2Proof.Machine

/-- From `s` to `t` the mode, the memory (each byte as one-byte reads see it) and every cell but those listed stay as they
were; the status registers are not spoken of. -/
def OnlyCells (cells : List PhysCell) (s t : State) : Prop :=
  t.mode = s.mode ∧ t.mem = s.mem ∧ (∀ a : Word, t.mem.read a 1 = s.mem.read a 1) ∧
  ∀ c, c ∉ cells → t.readCell c = s.readCell c

/-- Every saved status register stays as it was. -/
def SpsrsKept (s t : State) : Prop := ∀ m, t.readSpsr m = s.readSpsr m

/-- CPSR and every saved status register stay as they were. -/
def StatusKept (s t : State) : Prop := t.cpsr = s.cpsr ∧ SpsrsKept s t

/-- No logical index reaches the cell under the mode (10_state.md R23). -/
def Hidden (m : Mode) (c : PhysCell) : Prop := ∀ i, phys m i ≠ c

/-- Two states agree on all that an instruction can reach under their mode: the mode, the sixteen logical registers, CPSR,
the visible SPSR and the memory. -/
def SameView (s t : State) : Prop :=
  t.mode = s.mode ∧ (∀ i, t.get i = s.get i) ∧ t.cpsr = s.cpsr ∧ t.mem = s.mem ∧
  ∀ m, s.mode.spsr? = some m → t.readSpsr m = s.readSpsr m

/-- Two outcomes are alike: next states with the same view, or the same report. -/
def SameOutcome : Host.Outcome State Fault Refusal → Host.Outcome State Fault Refusal → Prop
  | .next s, .next t => SameView s t
  | .fault r, .fault q => q = r
  | .refused r, .refused q => q = r
  | .next _, .fault _ => False
  | .next _, .refused _ => False
  | .fault _, .next _ => False
  | .fault _, .refused _ => False
  | .refused _, .next _ => False
  | .refused _, .fault _ => False

/-- The invariant of the machine: the memory is in its canonical form. -/
def State.Inv (s : State) : Prop := s.mem.wf

/-- A run of `k` steps with no host operation between them that ends in `t` and meets no report. -/
def SafeRun (k : Nat) (s t : State) : Prop := Host.Core.run Sys2Proof.core k s = .next t

/-- A run has ended, by the reading of END_OF_RUN that is given (70_reset_and_hazards.md R200; log 24). -/
def Ended (e : Config.EndOfRun) (steps : Nat) (s : State) : Prop :=
  match e with
  | .selfBranch => s.mem.readU32 s.pc = .next 0xEAFFFFFE#32
  | .stepCount n => n ≤ steps

end Sys2Proof.Machine
end

