-- ==== Sys2Proof/Certificates/Slice0/Obligations.lean ====
section
/-! DEFINITION. The statements for the provers. Where a statement rests on a decision of the spec (D<n> of
92_eei_decisions.md) or on what the spec supplies from general knowledge (U<n> of 93_implementation_defined.md), its
docstring says so. -/

open Sys2Proof Sys2Proof.Machine

/-! ## Reset, construction, load -/

/-- 10_state.md R36, 70_reset_and_hazards.md R190, R191: after the register file's reset, from whatever state, and after
construction, every element has the value of R36's table; the register reset leaves the bus, and construction gives the state
a system reset gives, with the bus that a bus reset gives (every mapped byte zero, no window); after `load` S15 is
0x08000000. -/
def Obligations.ResetLeavesEveryElementAtItsTableValue : Prop :=
  (∀ s : State, s.resetRegisters.mode = .system ∧ (∀ c, s.resetRegisters.readCell c = 0) ∧ s.resetRegisters.cpsr = 0 ∧
    (∀ k, s.resetRegisters.readSpsr k = 0) ∧ s.resetRegisters.mem = s.mem) ∧
  (∀ s : State, (performOp .construction s).2 = State.reset ∧ s.systemReset = State.reset ∧
    State.reset.resetRegisters = State.reset ∧ State.reset.mem = s.mem.busReset) ∧
  State.reset.mem.romLen = none ∧ State.reset.mem.blocks = blocksBelowRom ++ blocksAboveRom ∧
  (∀ (a : Word) (n : Nat) (bs : List Byte), State.reset.mem.read a n = .next bs → bs = List.replicate n 0) ∧
  (∀ image : List Byte, image.length ≤ 0x02000000 → ∃ t, State.reset.load image = .next t ∧ t.pc = 0x08000000#32)

/-- 70_reset_and_hazards.md R192, R193 (D27): a system reset is the two component resets in either order, and each reset
done twice is the reset done once. -/
def Obligations.ResetsAreIdempotentAndCommute : Prop :=
  ∀ s : State, s.systemReset = s.resetRegisters.resetBus ∧ s.systemReset = s.resetBus.resetRegisters ∧
    s.systemReset.systemReset = s.systemReset ∧ s.resetRegisters.resetRegisters = s.resetRegisters ∧
    s.resetBus.resetBus = s.resetBus

/-- 70_reset_and_hazards.md R194 (D26): `load` of an image within 20_memory.md R72 always succeeds; it installs the image
in the three windows, sets the pc to 0x08000000 and leaves every other register, the mode, the status registers and the
bytes of the default blocks as they were; it does not reset. -/
def Obligations.LoadInstallsTheImageAndSetsOnlyThePc : Prop :=
  ∀ (s : State) (image : List Byte), s.mem.wf → image.length ≤ 0x02000000 →
    ∃ t, s.load image = .next t ∧ t.pc = 0x08000000#32 ∧ t.mode = s.mode ∧ StatusKept s t ∧
      (∀ c, c ≠ .s 7 → t.readCell c = s.readCell c) ∧
      t.mem.romLen = some image.length ∧
      (∀ (k : Nat) (h : k < image.length),
        t.mem.read (BitVec.ofNat 32 (0x08000000 + k)) 1 = .next [image[k]] ∧
        t.mem.read (BitVec.ofNat 32 (0x0A000000 + k)) 1 = .next [image[k]] ∧
        t.mem.read (BitVec.ofNat 32 (0x0C000000 + k)) 1 = .next [image[k]]) ∧
      (∀ a : Word, a.toNat < 0x08000000 ∨ 0x0E000000 ≤ a.toNat → t.mem.read a 1 = s.mem.read a 1)

/-! ## The register file -/

/-- 10_state.md R23: the physical cell of every logical index under every mode, and the source's three worked
consequences. -/
def Obligations.EveryIndexResolvesToItsTableCell : Prop :=
  (∀ (m : Mode) (i : Fin 8), phys m ⟨i.val, by omega⟩ = .g i) ∧
  (∀ m : Mode, phys m 15 = .s 7) ∧
  (∀ i : Fin 7, phys .fiq ⟨i.val + 8, by omega⟩ = .f i) ∧
  (∀ (m : Mode) (i : Fin 5), m ≠ .fiq → phys m ⟨i.val + 8, by omega⟩ = .s ⟨i.val, by omega⟩) ∧
  phys .system 13 = .s 5 ∧ phys .system 14 = .s 6 ∧
  phys .supervisor 13 = .p13 .supervisor ∧ phys .supervisor 14 = .p14 .supervisor ∧
  phys .abort 13 = .p13 .abort ∧ phys .abort 14 = .p14 .abort ∧
  phys .irq 13 = .p13 .irq ∧ phys .irq 14 = .p14 .irq ∧
  phys .undefined 13 = .p13 .undefined ∧ phys .undefined 14 = .p14 .undefined ∧
  (∀ (s : State) (v : Word), (((s.setMode .supervisor).set 9 v).setMode .system).get 9 = v) ∧
  (∀ (s : State) (v : Word), (((s.setMode .fiq).set 9 v).setMode .system).get 9 = (s.setMode .system).get 9) ∧
  (∀ (s : State) (m : ModeName), (s.setMode m).get 15 = (s.setMode .system).get 15)

/-- 10_state.md section 3 (D10 for r15): `set(i, v)` stores any `v` unchanged into the one cell that `i` resolves to, so
`get(i)` gives `v`; every other cell, the mode, the status registers and the memory stay. -/
def Obligations.SetWritesExactlyItsCell : Prop :=
  ∀ (s : State) (i : Reg) (v : Word),
    (s.set i v).get i = v ∧ (s.set i v).readCell (phys s.mode i) = v ∧ OnlyCells [phys s.mode i] s (s.set i v) ∧
      StatusKept s (s.set i v)

/-- 10_state.md R24: the program counter is the one cell S15, which every mode reads and writes as r15; no other cell is
reached as r15. -/
def Obligations.EveryModeSharesTheOneProgramCounter : Prop :=
  ∀ (s : State) (m n : ModeName) (v : Word),
    (s.setMode m).get 15 = s.readCell (.s 7) ∧ ((s.setMode m).set 15 v).readCell (.s 7) = v ∧
      (((s.setMode m).set 15 v).setMode n).get 15 = v ∧
      ∀ c, c ≠ .s 7 → ((s.setMode m).set 15 v).readCell c = s.readCell c

/-- 10_state.md sections 2 and 5 (D2, D3, D4): `set_mode` stores the mode the name denotes (User denotes System), keeps
every cell, CPSR and every SPSR, and copies nothing; `set_cpsr` stores all 32 bits and never changes the mode. -/
def Obligations.ModeAndCpsrAreIndependent : Prop :=
  ∀ (s : State) (m : ModeName) (v : Word),
    (s.setMode m).mode = m.stored ∧ (s.setMode .user).mode = .system ∧ (∀ c, (s.setMode m).readCell c = s.readCell c) ∧
      StatusKept s (s.setMode m) ∧ (s.setMode m).mem = s.mem ∧
      (performOp (.setCpsr v) s).2.cpsr = v ∧ (performOp (.setCpsr v) s).2.mode = s.mode ∧
      OnlyCells [] s (performOp (.setCpsr v) s).2 ∧ SpsrsKept s (performOp (.setCpsr v) s).2

/-- 10_state.md section 2, 60_exceptions.md section 4: of all operations of the interface, a step and the report of a step
among them, only `set_mode`, the register file's reset, the system reset and construction can change the mode. -/
def Obligations.ModeChangesOnlyBySetModeOrReset : Prop :=
  ∀ (op : HostOp) (s : State), (performOp op s).2.mode ≠ s.mode →
    (∃ m, op = .setMode m) ∨ op = .resetRegisters ∨ op = .systemReset ∨ op = .construction

/-- 10_state.md R32: SPSR get and set succeed in every mode except System, where both fail with a mode-context violation;
set stores into the SPSR of the mode and changes nothing else. -/
def Obligations.SpsrAccessFailsExactlyInSystemMode : Prop :=
  ∀ (s : State) (v : Word),
    (s.mode = .system → s.getSpsr = .fault .modeContextViolation ∧ s.setSpsr v = .fault .modeContextViolation ∧
      performOp (.setSpsr v) s = (.report .modeContextViolation, s)) ∧
    (∀ k, s.mode.spsr? = some k → s.getSpsr = .next (s.readSpsr k) ∧
      ∃ t, s.setSpsr v = .next t ∧ t.readSpsr k = v ∧ (∀ j, j ≠ k → t.readSpsr j = s.readSpsr j) ∧ t.cpsr = s.cpsr ∧
        OnlyCells [] s t) ∧
    (s.mode ≠ .system → ∃ k, s.mode.spsr? = some k)

/-! ## The decoder and the encoder -/

/-- 30_encoding.md: decoding the word of any well-formed instruction, every operand at any value its field admits, gives
the instruction back. -/
def Obligations.DecodeOfEncodeIsTheInstruction : Prop :=
  ∀ i : Instr, i.wellFormed = true → decode (encode i) = some i

/-- 30_encoding.md sections 3 and 5 (D13, that the decoder ignores bits 19:16 of a Move and bits 11:8 of a register-sourced
transfer): a word that decodes gives a well-formed instruction, and encoding it gives the word with the ignored bits cleared:
no other bit of a word is dropped. That `encode` writes the ignored bits as zero is the model's own choice (log 14, DESIGN
CHOICE); the spec has no encoder. -/
def Obligations.DecodeDropsOnlyTheIgnoredBits : Prop :=
  ∀ (w : Word) (i : Instr), decode w = some i →
    i.wellFormed = true ∧
    encode i = w &&& (match i with
      | .movImm .. | .movRegImm .. | .movRegReg .. => 0xFFF0FFFF#32
      | .msrCpsrReg .. | .msrSpsrReg .. => 0xFFFFF0FF#32
      | .b .. | .bl .. | .msrCpsrImm .. | .msrSpsrImm .. => 0xFFFFFFFF#32)

/-- 30_encoding.md section 2 (D12): no word matches two entries of the class table. -/
def Obligations.ClassTableEntriesAreDisjoint : Prop :=
  ∀ (w : Word) (e f : ClassEntry), e ∈ classTable → f ∈ classTable → e.matchesWord w = true → f.matchesWord w = true →
    e = f

/-- spec/opcode_table.json: a word is recognised exactly when it has the fixed bits of one of the nine rows, and then the
decoded instruction is of such a row. -/
def Obligations.RecognisedWordsAreThoseOfTheOpcodeRows : Prop :=
  (∀ (w : Word) (i : Instr), decode w = some i → w &&& i.rowMask = i.rowMatch) ∧
  ∀ w : Word, (decode w).isSome = true ↔
    w &&& 0x0F000000#32 = 0x0A000000#32 ∨ w &&& 0x0F000000#32 = 0x0B000000#32 ∨
    w &&& 0x0FE00000#32 = 0x03A00000#32 ∨ w &&& 0x0FE00010#32 = 0x01A00000#32 ∨ w &&& 0x0FE00090#32 = 0x01A00010#32 ∨
    w &&& 0x0FF0F000#32 = 0x0320F000#32 ∨ w &&& 0x0FF0F000#32 = 0x0360F000#32 ∨
    w &&& 0x0FF0F0F0#32 = 0x0120F000#32 ∨ w &&& 0x0FF0F0F0#32 = 0x0160F000#32

/-- 30_encoding.md section 5: the table of what is recognised by bits 27:25 (D12 to D14). -/
def Obligations.RecognitionByClassBits : Prop :=
  ∀ w : Word, (decode w).isSome = true ↔
    match (w.extractLsb' 25 3).toNat with
    | 0b000 =>
      (w.extractLsb' 21 4 = 0b1101#4 ∧ ¬(w.getLsbD 7 = true ∧ w.getLsbD 4 = true)) ∨
      (w.extractLsb' 23 2 = 0b10#2 ∧ w.extractLsb' 20 2 = 0b10#2 ∧ w.extractLsb' 12 4 = 0xF#4 ∧ w.extractLsb' 4 4 = 0#4)
    | 0b001 =>
      w.extractLsb' 21 4 = 0b1101#4 ∨
      (w.extractLsb' 23 2 = 0b10#2 ∧ w.extractLsb' 20 2 = 0b10#2 ∧ w.extractLsb' 12 4 = 0xF#4)
    | 0b101 => True
    | _ => False

/-- 30_encoding.md section 3, branch format (U1): every word with bits 27:25 = 0b101 is a branch, bit 24 the link bit, and
the decoded offset is 4 times the signed 24-bit field plus 8. -/
def Obligations.BranchWordsDecodeFieldByField : Prop :=
  ∀ w : Word, w.extractLsb' 25 3 = 0b101#3 →
    ∃ offset : Word, offset.toInt = 4 * (w.extractLsb' 0 24).toInt + 8 ∧
      decode w = some (if w.getLsbD 24 then .bl (condOfBits (w.extractLsb' 28 4)) offset
        else .b (condOfBits (w.extractLsb' 28 4)) offset)

/-- 30_encoding.md sections 3 and 4, Move format (U1, D13, D14): the three forms of a Move and the place of every operand
field. -/
def Obligations.MoveWordsDecodeFieldByField : Prop :=
  ∀ w : Word, w.extractLsb' 26 2 = 0b00#2 → w.extractLsb' 21 4 = 0b1101#4 →
    (w.getLsbD 25 = true →
      decode w = some (.movImm (condOfBits (w.extractLsb' 28 4)) (w.getLsbD 20) (regOfBits (w.extractLsb' 12 4))
        (w.extractLsb' 8 4) (w.extractLsb' 0 8))) ∧
    (w.getLsbD 25 = false → w.getLsbD 4 = false →
      decode w = some (.movRegImm (condOfBits (w.extractLsb' 28 4)) (w.getLsbD 20) (regOfBits (w.extractLsb' 12 4))
        (regOfBits (w.extractLsb' 0 4)) (shiftTypeOfBits (w.extractLsb' 5 2)) (w.extractLsb' 7 5))) ∧
    (w.getLsbD 25 = false → w.getLsbD 4 = true → w.getLsbD 7 = false →
      decode w = some (.movRegReg (condOfBits (w.extractLsb' 28 4)) (w.getLsbD 20) (regOfBits (w.extractLsb' 12 4))
        (regOfBits (w.extractLsb' 0 4)) (shiftTypeOfBits (w.extractLsb' 5 2)) (regOfBits (w.extractLsb' 8 4)))) ∧
    (w.getLsbD 25 = false → w.getLsbD 4 = true → w.getLsbD 7 = true → decode w = none)

/-- 30_encoding.md section 3, status-register-transfer format (U1, D13): the four forms and the place of every operand
field; in the register form bits 11:8 have no effect and bits 7:4 must be zero. -/
def Obligations.TransferWordsDecodeFieldByField : Prop :=
  ∀ w : Word, w.extractLsb' 26 2 = 0b00#2 → w.extractLsb' 23 2 = 0b10#2 → w.extractLsb' 20 2 = 0b10#2 →
    w.extractLsb' 12 4 = 0xF#4 →
    (w.getLsbD 25 = true → w.getLsbD 22 = false →
      decode w = some (.msrCpsrImm (condOfBits (w.extractLsb' 28 4)) (w.extractLsb' 16 4) (w.extractLsb' 8 4)
        (w.extractLsb' 0 8))) ∧
    (w.getLsbD 25 = true → w.getLsbD 22 = true →
      decode w = some (.msrSpsrImm (condOfBits (w.extractLsb' 28 4)) (w.extractLsb' 16 4) (w.extractLsb' 8 4)
        (w.extractLsb' 0 8))) ∧
    (w.getLsbD 25 = false → w.extractLsb' 4 4 = 0#4 → w.getLsbD 22 = false →
      decode w = some (.msrCpsrReg (condOfBits (w.extractLsb' 28 4)) (w.extractLsb' 16 4) (regOfBits (w.extractLsb' 0 4)))) ∧
    (w.getLsbD 25 = false → w.extractLsb' 4 4 = 0#4 → w.getLsbD 22 = true →
      decode w = some (.msrSpsrReg (condOfBits (w.extractLsb' 28 4)) (w.extractLsb' 16 4) (regOfBits (w.extractLsb' 0 4)))) ∧
    (w.getLsbD 25 = false → w.extractLsb' 4 4 ≠ 0#4 → decode w = none)

/-- 30_encoding.md section 7 and 95_test_vectors.md section 2.1: the source's three words as bytes, one word of every
other row, and words that are no instruction. -/
def Obligations.SourceWordsDecodeAsTheSpecSays : Prop :=
  decodeBytes [0x32#8, 0x00#8, 0x00#8, 0xEA#8] = .ok (.b .al 0xD0#32) ∧
  decodeBytes [0x12#8, 0x00#8, 0xA0#8, 0xE3#8] = .ok (.movImm .al false 0 0#4 0x12#8) ∧
  decodeBytes [0x00#8, 0xF8#8, 0x29#8, 0xE1#8] = .ok (.msrCpsrReg .al 0b1001#4 0) ∧
  decode 0xEB000032#32 = some (.bl .al 0xD0#32) ∧
  decode 0xE1B00061#32 = some (.movRegImm .al true 0 1 .ror 0#5) ∧
  decode 0xE1B02351#32 = some (.movRegReg .al true 2 1 .asr 3) ∧
  decode 0xE328F20F#32 = some (.msrCpsrImm .al 0b1000#4 2#4 0x0F#8) ∧
  decode 0xE369F01F#32 = some (.msrSpsrImm .al 0b1001#4 0#4 0x1F#8) ∧
  decode 0xE16FF003#32 = some (.msrSpsrReg .al 0b1111#4 3) ∧
  decode 0xE12FFF1E#32 = none ∧ decode 0x00000000#32 = none ∧ decode 0xE1A00090#32 = none

/-- 30_encoding.md sections 1 and 5 (D15, D16): whether a word is recognised does not depend on its condition field, 0b1111
included, and the decoded instruction keeps the condition. -/
def Obligations.RecognitionIgnoresTheCondition : Prop :=
  ∀ w v : Word, w.extractLsb' 0 28 = v.extractLsb' 0 28 →
    ((decode w).isSome = (decode v).isSome) ∧
    (∀ i, decode w = some i → i.cond = condOfBits (w.extractLsb' 28 4))

/-- 30_encoding.md section 4 (that it is a multiple of 4 is the spec's own derivation): the branch offset is the
sign-extended field shifted left 2 plus 8, a multiple of 4 in the stated range, and the section's four examples. -/
def Obligations.BranchOffsetIsSignedAndBiasedByEight : Prop :=
  (∀ imm24 : BitVec 24, branchOffset imm24 = (imm24.signExtend 32 <<< 2) + 8#32 ∧
    (branchOffset imm24).toInt = 4 * imm24.toInt + 8 ∧ (branchOffset imm24).toInt % 4 = 0 ∧
    -0x01FFFFF8 ≤ (branchOffset imm24).toInt ∧ (branchOffset imm24).toInt ≤ 0x02000004) ∧
  branchOffset 0x000032#24 = 0xD0#32 ∧ branchOffset 0xFFFFFE#24 = 0#32 ∧
  (branchOffset 0x800000#24).toInt = -0x01FFFFF8 ∧ (branchOffset 0x7FFFFF#24).toInt = 0x02000004

/-- 30_encoding.md section 4 (U18): the rotated immediate is the zero-extended byte rotated right by twice the 4-bit
amount; `ROR32` is the rotation of 00_scope.md section 6 for every amount. -/
def Obligations.RotatedImmediateIsARightRotation : Prop :=
  (∀ (v : Word) (n : Nat), ror32 v n = v.rotateRight n) ∧
  (∀ (rot : BitVec 4) (imm8 : BitVec 8), rotatedImm rot imm8 = (imm8.setWidth 32).rotateRight (2 * rot.toNat)) ∧
  (∀ imm8 : BitVec 8, (rotatedImm 0#4 imm8).toNat = imm8.toNat)

/-! ## Conditions -/

/-- 40_step_and_condition.md section 2 and 95_test_vectors.md section 2.2 (U3; D15 for 0b1111): each condition passes for
exactly the listed values of CPSR bits 31:28, whatever the other bits. -/
def Obligations.ConditionsPassForTheListedFlags : Prop :=
  ∀ (c : Cond) (cpsr : Word), conditionPassed c cpsr = true ↔
    (cpsr.extractLsb' 28 4).toNat ∈ (match c with
      | .eq => [4, 5, 6, 7, 12, 13, 14, 15]
      | .ne => [0, 1, 2, 3, 8, 9, 10, 11]
      | .cs => [2, 3, 6, 7, 10, 11, 14, 15]
      | .cc => [0, 1, 4, 5, 8, 9, 12, 13]
      | .mi => [8, 9, 10, 11, 12, 13, 14, 15]
      | .pl => [0, 1, 2, 3, 4, 5, 6, 7]
      | .vs => [1, 3, 5, 7, 9, 11, 13, 15]
      | .vc => [0, 2, 4, 6, 8, 10, 12, 14]
      | .hi => [2, 3, 10, 11]
      | .ls => [0, 1, 4, 5, 6, 7, 8, 9, 12, 13, 14, 15]
      | .ge => [0, 2, 4, 6, 9, 11, 13, 15]
      | .lt => [1, 3, 5, 7, 8, 10, 12, 14]
      | .gt => [0, 2, 9, 11]
      | .le => [1, 3, 4, 5, 6, 7, 8, 10, 12, 13, 14, 15]
      | .al => [0, 1, 2, 3, 4, 5, 6, 7, 8, 9, 10, 11, 12, 13, 14, 15]
      | .nv => [])

/-- 40_step_and_condition.md section 1 (that no report is raised is the spec's own derivation from the order of the step;
D11 for the wrap): an instruction whose condition is false advances the pc by 4, modulo 2^32, changes
nothing else and raises no report, whichever instruction it is. -/
def Obligations.SkippedInstructionOnlyAdvancesThePc : Prop :=
  ∀ (i : Instr) (s : State), conditionPassed i.cond s.cpsr = false →
    ∃ t, exec i s = .next t ∧ t.pc = s.pc + 4#32 ∧ OnlyCells [.s 7] s t ∧ StatusKept s t

/-! ## Branches -/

/-- 41_branch.md, the entry of `B`: it sets the pc to the old pc plus the signed offset and writes nothing else, for every offset; every
word `cccc 1010 imm24` is this instruction with the offset of 30_encoding.md section 4. The bit positions rest on what the
spec supplies from general knowledge (U1). -/
def Obligations.BranchWritesOnlyThePc : Prop :=
  (∀ (c : Cond) (offset : Word) (s : State), conditionPassed c s.cpsr = true →
    ∃ t, exec (.b c offset) s = .next t ∧ t.pc = s.pc + offset ∧ OnlyCells [.s 7] s t ∧ StatusKept s t) ∧
  (∀ w : Word, w.extractLsb' 24 4 = 0b1010#4 →
    decode w = some (.b (condOfBits (w.extractLsb' 28 4)) (((w.extractLsb' 0 24).signExtend 32 <<< 2) + 8#32)))

/-- 41_branch.md, the entry of `BL` (C3 for the linked value, D33 for the register): it puts the address of the BL itself into r14 of the current mode and the old pc plus the offset
into the pc, and writes nothing else; which cell r14 is in each mode; every word `cccc 1011 imm24` is this instruction. The
bit positions rest on what the spec supplies from general knowledge (U1). -/
def Obligations.BranchLinkWritesItsOwnAddressAndThePc : Prop :=
  (∀ (c : Cond) (offset : Word) (s : State), conditionPassed c s.cpsr = true →
    ∃ t, exec (.bl c offset) s = .next t ∧ t.get 14 = s.pc ∧ t.pc = s.pc + offset ∧
      t.readCell (match s.mode with
        | .system => .s 6
        | .fiq => .f 6
        | .supervisor => .p14 .supervisor
        | .abort => .p14 .abort
        | .irq => .p14 .irq
        | .undefined => .p14 .undefined) = s.pc ∧
      OnlyCells [phys s.mode 14, .s 7] s t ∧ StatusKept s t) ∧
  (∀ w : Word, w.extractLsb' 24 4 = 0b1011#4 →
    decode w = some (.bl (condOfBits (w.extractLsb' 28 4)) (((w.extractLsb' 0 24).signExtend 32 <<< 2) + 8#32)))

/-- 41_branch.md, 40_step_and_condition.md section 3 (D10, D11): the target of every branch that a word encodes is
the old pc plus the signed offset modulo 2^32, and keeps the old pc's remainder modulo 4. -/
def Obligations.BranchTargetsWrapAndKeepAlignment : Prop :=
  ∀ (s t : State) (w : Word) (i : Instr), w.extractLsb' 25 3 = 0b101#3 → decode w = some i →
    conditionPassed i.cond s.cpsr = true → exec i s = .next t →
    (t.pc.toNat : Int) = ((s.pc.toNat : Int) + 4 * (w.extractLsb' 0 24).toInt + 8) % 2 ^ 32 ∧
      t.pc.toNat % 4 = s.pc.toNat % 4

/-! ## Moves -/

/-- 42_move.md sections 1 to 4, the immediate form (U1, U5, U18, D19): the destination, r15 included, gets the rotated
immediate; with S = 1 the flags N, Z, C follow the value and the carry-out (bit 31 of the value, or C kept when rot is 0)
and V and bits 27:0 are kept; with S = 0 CPSR is kept; the pc advances by 4 unless r15 is the destination; nothing else
changes. -/
def Obligations.MoveImmediateResult : Prop :=
  ∀ (c : Cond) (f : Bool) (rd : Reg) (rot : BitVec 4) (imm8 : BitVec 8) (s : State),
    conditionPassed c s.cpsr = true → ¬(f = true ∧ rd = 15) →
    ∃ t v, exec (.movImm c f rd rot imm8) s = .next t ∧ v = (imm8.setWidth 32).rotateRight (2 * rot.toNat) ∧
      t.get rd = v ∧ (rd ≠ 15 → t.pc = s.pc + 4#32) ∧ (f = false → t.cpsr = s.cpsr) ∧
      (f = true → t.cpsr.getLsbD 31 = v.getLsbD 31 ∧ t.cpsr.getLsbD 30 = decide (v = 0#32) ∧
        t.cpsr.getLsbD 29 = (if rot = 0#4 then s.cpsr.getLsbD 29 else v.getLsbD 31) ∧
        t.cpsr.extractLsb' 0 29 = s.cpsr.extractLsb' 0 29) ∧
      OnlyCells [phys s.mode rd, .s 7] s t ∧ SpsrsKept s t

/-- 42_move.md sections 1 to 4, a register shifted by an immediate (U1, U4, U5, D19, D20): as for the immediate form, with
the value and the carry-out of `ShiftImm` on the value of Rm read before anything is written (r15 reads as the
instruction's own address). -/
def Obligations.MoveShiftedByImmediateResult : Prop :=
  ∀ (c : Cond) (f : Bool) (rd rm : Reg) (type : ShiftType) (amount : BitVec 5) (s : State),
    conditionPassed c s.cpsr = true → ¬(f = true ∧ rd = 15) →
    ∃ t v carry, exec (.movRegImm c f rd rm type amount) s = .next t ∧
      (v, carry) = shiftImm (if rm = 15 then s.pc else s.get rm) type amount (s.cpsr.getLsbD 29) ∧
      t.get rd = v ∧ (rd ≠ 15 → t.pc = s.pc + 4#32) ∧ (f = false → t.cpsr = s.cpsr) ∧
      (f = true → t.cpsr.getLsbD 31 = v.getLsbD 31 ∧ t.cpsr.getLsbD 30 = decide (v = 0#32) ∧
        t.cpsr.getLsbD 29 = carry ∧ t.cpsr.extractLsb' 0 29 = s.cpsr.extractLsb' 0 29) ∧
      OnlyCells [phys s.mode rd, .s 7] s t ∧ SpsrsKept s t

/-- 42_move.md sections 1 to 4, a register shifted by a register (U1, U4, U5, D19, D20): as for the immediate form, with the
value and the carry-out of `ShiftReg` on the value of Rm and the low byte of Rs, both read before anything is written. -/
def Obligations.MoveShiftedByRegisterResult : Prop :=
  ∀ (c : Cond) (f : Bool) (rd rm rs : Reg) (type : ShiftType) (s : State),
    conditionPassed c s.cpsr = true → ¬(f = true ∧ rd = 15) →
    ∃ t v carry, exec (.movRegReg c f rd rm type rs) s = .next t ∧
      (v, carry) = shiftReg (if rm = 15 then s.pc else s.get rm) type
        (BitVec.ofNat 8 ((if rs = 15 then s.pc else s.get rs).toNat % 256)) (s.cpsr.getLsbD 29) ∧
      t.get rd = v ∧ (rd ≠ 15 → t.pc = s.pc + 4#32) ∧ (f = false → t.cpsr = s.cpsr) ∧
      (f = true → t.cpsr.getLsbD 31 = v.getLsbD 31 ∧ t.cpsr.getLsbD 30 = decide (v = 0#32) ∧
        t.cpsr.getLsbD 29 = carry ∧ t.cpsr.extractLsb' 0 29 = s.cpsr.extractLsb' 0 29) ∧
      OnlyCells [phys s.mode rd, .s 7] s t ∧ SpsrsKept s t

/-- 42_move.md section 4 (D23, D18): S = 1 with Rd = 15, in each of the three encodings, ends with `NotImplemented` when its
condition passes, and the report leaves every part of the state as it was. -/
def Obligations.FlagSettingMoveToPcReportsNotImplemented : Prop :=
  ∀ (c : Cond) (rot : BitVec 4) (imm8 : BitVec 8) (rm rs : Reg) (type : ShiftType) (amount : BitVec 5) (s : State),
    conditionPassed c s.cpsr = true →
    exec (.movImm c true 15 rot imm8) s = .fault (.notImplemented s.pc) ∧
    exec (.movRegImm c true 15 rm type amount) s = .fault (.notImplemented s.pc) ∧
    exec (.movRegReg c true 15 rm type rs) s = .fault (.notImplemented s.pc) ∧
    s.afterFault (.notImplemented s.pc) = s

/-- 42_move.md section 3 (U4, D21): `ShiftImm`, value and carry-out, for every type and every amount from 0 to 31, in
terms of arithmetic: LSL multiplies, LSR divides, ASR divides the signed value rounding down, ROR rotates; an amount of 0 is
no shift, a shift by 32, or RRX. -/
def Obligations.ShiftByImmediateTable : Prop :=
  ∀ (rm : Word) (amount : BitVec 5) (c : Bool),
    (amount = 0#5 →
      shiftImm rm .lsl amount c = (rm, c) ∧ shiftImm rm .lsr amount c = (0#32, rm.getLsbD 31) ∧
      shiftImm rm .asr amount c = (if rm.getLsbD 31 then 0xFFFFFFFF#32 else 0#32, rm.getLsbD 31) ∧
      (shiftImm rm .ror amount c).1.toNat = (if c then 2 ^ 31 else 0) + rm.toNat / 2 ∧
      (shiftImm rm .ror amount c).2 = rm.getLsbD 0) ∧
    (amount ≠ 0#5 →
      (shiftImm rm .lsl amount c).1.toNat = rm.toNat * 2 ^ amount.toNat % 2 ^ 32 ∧
      (shiftImm rm .lsl amount c).2 = rm.getLsbD (32 - amount.toNat) ∧
      (shiftImm rm .lsr amount c).1.toNat = rm.toNat / 2 ^ amount.toNat ∧
      (shiftImm rm .lsr amount c).2 = rm.getLsbD (amount.toNat - 1) ∧
      (shiftImm rm .asr amount c).1.toInt = rm.toInt / 2 ^ amount.toNat ∧
      (shiftImm rm .asr amount c).2 = rm.getLsbD (amount.toNat - 1) ∧
      shiftImm rm .ror amount c = (rm.rotateRight amount.toNat, rm.getLsbD (amount.toNat - 1)))

/-- 42_move.md section 3 (U4, D21): `ShiftReg`, value and carry-out, for every type and every amount from 0 to 255. -/
def Obligations.ShiftByRegisterTable : Prop :=
  ∀ (rm : Word) (amount : BitVec 8) (c : Bool),
    (amount = 0#8 → ∀ type, shiftReg rm type amount c = (rm, c)) ∧
    (1 ≤ amount.toNat → amount.toNat ≤ 31 →
      (shiftReg rm .lsl amount c).1.toNat = rm.toNat * 2 ^ amount.toNat % 2 ^ 32 ∧
      (shiftReg rm .lsl amount c).2 = rm.getLsbD (32 - amount.toNat) ∧
      (shiftReg rm .lsr amount c).1.toNat = rm.toNat / 2 ^ amount.toNat ∧
      (shiftReg rm .lsr amount c).2 = rm.getLsbD (amount.toNat - 1) ∧
      (shiftReg rm .asr amount c).1.toInt = rm.toInt / 2 ^ amount.toNat ∧
      (shiftReg rm .asr amount c).2 = rm.getLsbD (amount.toNat - 1) ∧
      shiftReg rm .ror amount c = (rm.rotateRight amount.toNat, rm.getLsbD (amount.toNat - 1))) ∧
    (amount.toNat = 32 →
      shiftReg rm .lsl amount c = (0#32, rm.getLsbD 0) ∧ shiftReg rm .lsr amount c = (0#32, rm.getLsbD 31)) ∧
    (33 ≤ amount.toNat →
      shiftReg rm .lsl amount c = (0#32, false) ∧ shiftReg rm .lsr amount c = (0#32, false)) ∧
    (32 ≤ amount.toNat →
      shiftReg rm .asr amount c = (if rm.getLsbD 31 then 0xFFFFFFFF#32 else 0#32, rm.getLsbD 31) ∧
      (amount.toNat % 32 = 0 → shiftReg rm .ror amount c = (rm, rm.getLsbD 31)) ∧
      (amount.toNat % 32 ≠ 0 →
        shiftReg rm .ror amount c = (rm.rotateRight (amount.toNat % 32), rm.getLsbD (amount.toNat % 32 - 1))))

/-! ## Status-register transfers -/

/-- 43_psr_transfer.md section 1 (D24): bit `k` of a status register written through a field mask comes from the operand
where the mask selects byte `k / 8`, and is kept elsewhere. -/
def Obligations.FieldMaskSelectsWholeBytes : Prop :=
  ∀ (f : BitVec 4) (psr op : Word) (k : Nat), k < 32 →
    (maskedWrite f psr op).getLsbD k = if f.getLsbD (k / 8) then op.getLsbD k else psr.getLsbD k

/-- 43_psr_transfer.md section 2 (U1, U18, D3, D24): both forms of `MSR` to CPSR complete in every mode: the selected bytes
of CPSR come from the operand, the others are kept, the pc advances by 4, and nothing else changes, the mode included. -/
def Obligations.TransferToCpsrResult : Prop :=
  ∀ (c : Cond) (f rot : BitVec 4) (imm8 : BitVec 8) (rm : Reg) (s : State), conditionPassed c s.cpsr = true →
    (∃ t, exec (.msrCpsrImm c f rot imm8) s = .next t ∧
      (∀ k, k < 32 → t.cpsr.getLsbD k =
        if f.getLsbD (k / 8) then ((imm8.setWidth 32).rotateRight (2 * rot.toNat)).getLsbD k else s.cpsr.getLsbD k) ∧
      t.pc = s.pc + 4#32 ∧ OnlyCells [.s 7] s t ∧ SpsrsKept s t) ∧
    (∃ t, exec (.msrCpsrReg c f rm) s = .next t ∧
      (∀ k, k < 32 → t.cpsr.getLsbD k =
        if f.getLsbD (k / 8) then (if rm = 15 then s.pc else s.get rm).getLsbD k else s.cpsr.getLsbD k) ∧
      t.pc = s.pc + 4#32 ∧ OnlyCells [.s 7] s t ∧ SpsrsKept s t)

/-- 43_psr_transfer.md section 2 (U1, U18, D24): outside System mode both forms of `MSR` to SPSR complete: the selected
bytes of the SPSR of the current mode come from the operand, the others are kept, the pc advances by 4, and nothing else
changes, CPSR and the other four SPSRs included. -/
def Obligations.TransferToSpsrResult : Prop :=
  ∀ (c : Cond) (f rot : BitVec 4) (imm8 : BitVec 8) (rm : Reg) (s : State), conditionPassed c s.cpsr = true →
    s.mode ≠ .system →
    ∃ m, s.mode.spsr? = some m ∧
      (∃ t, exec (.msrSpsrImm c f rot imm8) s = .next t ∧
        (∀ k, k < 32 → (t.readSpsr m).getLsbD k =
          if f.getLsbD (k / 8) then ((imm8.setWidth 32).rotateRight (2 * rot.toNat)).getLsbD k
          else (s.readSpsr m).getLsbD k) ∧
        (∀ j, j ≠ m → t.readSpsr j = s.readSpsr j) ∧ t.cpsr = s.cpsr ∧ t.pc = s.pc + 4#32 ∧ OnlyCells [.s 7] s t) ∧
      (∃ t, exec (.msrSpsrReg c f rm) s = .next t ∧
        (∀ k, k < 32 → (t.readSpsr m).getLsbD k =
          if f.getLsbD (k / 8) then (if rm = 15 then s.pc else s.get rm).getLsbD k else (s.readSpsr m).getLsbD k) ∧
        (∀ j, j ≠ m → t.readSpsr j = s.readSpsr j) ∧ t.cpsr = s.cpsr ∧ t.pc = s.pc + 4#32 ∧ OnlyCells [.s 7] s t)

/-- 43_psr_transfer.md sections 2 and 3 (D18): in System mode both forms of `MSR` to SPSR report a mode-context violation,
whatever the field mask, and the report leaves every part of the state as it was. -/
def Obligations.TransferToSpsrReportsInSystemMode : Prop :=
  ∀ (c : Cond) (f rot : BitVec 4) (imm8 : BitVec 8) (rm : Reg) (s : State), conditionPassed c s.cpsr = true →
    s.mode = .system →
    exec (.msrSpsrImm c f rot imm8) s = .fault .modeContextViolation ∧
    exec (.msrSpsrReg c f rm) s = .fault .modeContextViolation ∧ s.afterFault .modeContextViolation = s

/-! ## All instructions -/

/-- 40_step_and_condition.md sections 3 and 4, 60_exceptions.md section 2 (D23): no instruction is refused, and an
instruction ends in a report only when its condition passes and it is a flag-setting Move to r15 (`NotImplemented`) or an
MSR to SPSR in System mode (`ModeContextViolation`). -/
def Obligations.InstructionsReportOnlyInTheNamedCases : Prop :=
  ∀ (i : Instr) (s : State),
    (∀ r, exec i s ≠ .refused r) ∧
    (∀ r, exec i s = .fault r → conditionPassed i.cond s.cpsr = true ∧
      match i with
      | .movImm _ f rd _ _ => f = true ∧ rd = 15 ∧ r = .notImplemented s.pc
      | .movRegImm _ f rd _ _ _ => f = true ∧ rd = 15 ∧ r = .notImplemented s.pc
      | .movRegReg _ f rd _ _ _ => f = true ∧ rd = 15 ∧ r = .notImplemented s.pc
      | .msrSpsrImm _ _ _ _ => s.mode = .system ∧ r = .modeContextViolation
      | .msrSpsrReg _ _ _ => s.mode = .system ∧ r = .modeContextViolation
      | .b _ _ => False
      | .bl _ _ => False
      | .msrCpsrImm _ _ _ _ => False
      | .msrCpsrReg _ _ _ => False)

/-- 40_step_and_condition.md section 3 (D19): an instruction that runs and is not a branch and not a Move to r15 leaves the
pc at the old pc plus 4; one that writes r15 leaves the pc at the value written, with no 4 added. -/
def Obligations.PcAdvancesByFourUnlessRedirected : Prop :=
  ∀ (i : Instr) (s t : State), conditionPassed i.cond s.cpsr = true → exec i s = .next t →
    match i with
    | .b _ offset => t.pc = s.pc + offset
    | .bl _ offset => t.pc = s.pc + offset
    | .movImm _ _ rd rot imm8 => t.pc = if rd = 15 then rotatedImm rot imm8 else s.pc + 4#32
    | .movRegImm _ _ rd rm type amount =>
      t.pc = if rd = 15 then (shiftImm (s.get rm) type amount (s.cpsr.getLsbD 29)).1 else s.pc + 4#32
    | .movRegReg _ _ rd rm type rs =>
      t.pc = if rd = 15 then (shiftReg (s.get rm) type ((s.get rs).extractLsb' 0 8) (s.cpsr.getLsbD 29)).1
        else s.pc + 4#32
    | .msrCpsrImm _ _ _ _ => t.pc = s.pc + 4#32
    | .msrSpsrImm _ _ _ _ => t.pc = s.pc + 4#32
    | .msrCpsrReg _ _ _ => t.pc = s.pc + 4#32
    | .msrSpsrReg _ _ _ => t.pc = s.pc + 4#32

/-- 10_state.md section 5, the list of flag writers: an instruction changes N, Z or C only if it is a Move with S = 1 and Rd
not 15 or an MSR to CPSR with field-mask bit 3 set, and V only if it is such an MSR; bits 27:0 of CPSR change only by an MSR
to CPSR. -/
def Obligations.FlagsAreWrittenOnlyByTheListedInstructions : Prop :=
  ∀ (i : Instr) (s t : State), exec i s = .next t →
    (t.cpsr.extractLsb' 29 3 ≠ s.cpsr.extractLsb' 29 3 → match i with
      | .movImm _ f rd _ _ => f = true ∧ rd ≠ 15
      | .movRegImm _ f rd _ _ _ => f = true ∧ rd ≠ 15
      | .movRegReg _ f rd _ _ _ => f = true ∧ rd ≠ 15
      | .msrCpsrImm _ m _ _ => m.getLsbD 3 = true
      | .msrCpsrReg _ m _ => m.getLsbD 3 = true
      | .b .. | .bl .. | .msrSpsrImm .. | .msrSpsrReg .. => False) ∧
    (t.cpsr.getLsbD 28 ≠ s.cpsr.getLsbD 28 → match i with
      | .msrCpsrImm _ m _ _ => m.getLsbD 3 = true
      | .msrCpsrReg _ m _ => m.getLsbD 3 = true
      | .b .. | .bl .. | .movImm .. | .movRegImm .. | .movRegReg .. | .msrSpsrImm .. | .msrSpsrReg .. => False) ∧
    (t.cpsr.extractLsb' 0 28 ≠ s.cpsr.extractLsb' 0 28 → match i with
      | .msrCpsrImm .. | .msrCpsrReg .. => True
      | .b .. | .bl .. | .movImm .. | .movRegImm .. | .movRegReg .. | .msrSpsrImm .. | .msrSpsrReg .. => False)

/-! ## The step -/

/-- 40_step_and_condition.md section 1: when the four bytes at the pc decode to an instruction, the step is that
instruction's meaning at this state. That the condition test and the pc's advance, which the section puts in the step, stand
inside `exec`, so that `step` adds nothing around it, is the model's own choice (log 29, DESIGN CHOICE). -/
def Obligations.StepRunsTheDecodedInstruction : Prop :=
  ∀ (s : State) (bs : List Byte) (i : Instr), s.mem.read s.pc 4 = .next bs → decodeBytes bs = .ok i → step s = exec i s

/-- 40_step_and_condition.md section 1 (D18): a fetch that the bus refuses ends the step with `AddressingFault(old_pc, 4)`
and changes no state, the pc included. -/
def Obligations.FetchFaultChangesNothing : Prop :=
  ∀ s : State, (∀ bs, s.mem.read s.pc 4 ≠ .next bs) →
    step s = .fault (.addressingFault s.pc 4) ∧ stepOutcome s = (.addressingFault s.pc 4, s)

/-- 40_step_and_condition.md section 1 (D16, D17; that `step` stops there is the model's reading of U12, log 2): an
unrecognised word ends the step with `DecodeMiss`, recording the pc and the word, whatever its condition field; the report
leaves the pc advanced by 4 and nothing else changed. -/
def Obligations.DecodeMissAdvancesOnlyThePc : Prop :=
  ∀ (s : State) (w : Word), s.mem.readU32 s.pc = .next w → decode w = none →
    step s = .fault (.decodeMiss s.pc w) ∧ (stepOutcome s).1 = .decodeMiss s.pc w ∧
      (stepOutcome s).2.pc = s.pc + 4#32 ∧ OnlyCells [.s 7] s (stepOutcome s).2 ∧ StatusKept s (stepOutcome s).2

/-- 40_step_and_condition.md section 1: a step has exactly one of the six outcomes, returned beside the new state, and is
never refused. The order of decode and condition is the spec's decision D16 (log 15); the states that the reports leave are
its decisions D17, for `DecodeMiss`, and D18, for the three others (log 16); that `step` itself answers a report as a fault
is the model's reading (log 2). -/
def Obligations.EveryStepHasOneOfSixOutcomes : Prop :=
  ∀ s : State, (∀ r, step s ≠ .refused r) ∧
    ((s.fetch = .fault (.addressingFault s.pc 4) ∧ stepOutcome s = (.addressingFault s.pc 4, s)) ∨
     ∃ w, s.fetch = .next w ∧
      ((decode w = none ∧ stepOutcome s = (.decodeMiss s.pc w, s.setPc (s.pc + 4#32))) ∨
       ∃ i, decode w = some i ∧
        ((conditionPassed i.cond s.cpsr = false ∧ stepOutcome s = (.skipped, s.setPc (s.pc + 4#32))) ∨
         (conditionPassed i.cond s.cpsr = true ∧
          ((∃ t, step s = .next t ∧ stepOutcome s = (.executed, t)) ∨
           (step s = .fault (.notImplemented s.pc) ∧ stepOutcome s = (.notImplemented s.pc w, s)) ∨
           (step s = .fault .modeContextViolation ∧ stepOutcome s = (.modeContextViolation, s)))))))

/-- 20_memory.md section 6, 10_state.md section 2, 60_exceptions.md section 4: no step writes memory or changes the mode. -/
def Obligations.StepsNeverWriteMemoryOrMode : Prop :=
  ∀ s t : State, step s = .next t →
    t.mode = s.mode ∧ t.mem = s.mem ∧ ∀ (a : Word) (n : Nat), t.mem.read a n = s.mem.read a n

/-- 20_memory.md section 8: a host write of a word at the pc is seen by the very next step; and a word placed by
`withFetchWord` (the model's own choice, log 25) is the one the next step runs, from every state with a canonical memory
(log 6). That the step is `exec` with nothing around it is the model's own choice too (log 29). -/
def Obligations.NextFetchSeesTheWrittenWord : Prop :=
  (∀ (s : State) (m : Memory) (w : Word) (i : Instr), s.mem.wf →
    s.mem.write s.pc [w.extractLsb' 0 8, w.extractLsb' 8 8, w.extractLsb' 16 8, w.extractLsb' 24 8] = .next m →
    decode w = some i → step (s.withMem m) = exec i (s.withMem m)) ∧
  (∀ (s : State) (w : Nat) (i : Instr), s.mem.wf → decode (BitVec.ofNat 32 w) = some i →
    step (s.withFetchWord 32 w) = exec i (s.withFetchWord 32 w))

/-- 70_reset_and_hazards.md section 5: with the self-branch 0xEAFFFFFE at the pc, a step leaves the whole state unchanged, so
every later step does too, and the run counts as ended under `selfBranch`. -/
def Obligations.SelfBranchIsAFixedPoint : Prop :=
  ∀ s : State, Ended .selfBranch 0 s → step s = .next s ∧ ∀ k, SafeRun k s s

/-! ## The bus -/

/-- 20_memory.md R52: the default layout, installed at construction and by the bus reset, is these eight blocks, at these
bases and with these sizes. -/
def Obligations.DefaultBlocksAreTheEightOfTheMap : Prop :=
  (performOp .construction State.reset).2.mem.blocks.map (fun b => (b.name, b.base, b.size)) =
    [ (.bootRom, 0x00000000, 16 * 1024), (.externalWorkRam, 0x02000000, 256 * 1024),
      (.internalWorkRam, 0x03000000, 32 * 1024), (.ioSpace, 0x04000000, 1 * 1024), (.paletteRam, 0x05000000, 1 * 1024),
      (.videoRam, 0x06000000, 96 * 1024), (.objectAttribute, 0x07000000, 1 * 1024),
      (.cartridgeRam, 0x0E000000, 64 * 1024) ] ∧
  (∀ s : State, (performOp .construction s).2.mem.blocks = (performOp .construction State.reset).2.mem.blocks ∧
    (performOp .resetBus s).2.mem.blocks = (performOp .construction State.reset).2.mem.blocks)

/-- 20_memory.md sections 2 and 3 (D5): an access of at least one byte succeeds exactly when it lies, in unbounded integers
and with the end included, in the installed block with the greatest base at most the address; otherwise the answer is the
report with the address and the length; a read returns as many bytes as asked. -/
def Obligations.AccessSucceedsExactlyWithinItsBlock : Prop :=
  ∀ (m : Memory) (a : Word) (n : Nat), 1 ≤ n →
    ((∃ bs, m.read a n = .next bs) ↔
      ∃ b ∈ m.blocks, b.base ≤ a.toNat ∧ (∀ c ∈ m.blocks, c.base ≤ a.toNat → c.base ≤ b.base) ∧
        a.toNat - b.base + n ≤ b.size) ∧
    ((∃ bs, m.read a n = .next bs) ∨ m.read a n = .fault (.addressingFault a n)) ∧
    (∀ bs, m.read a n = .next bs → bs.length = n)

/-- 20_memory.md R57: `read_u32` is a read of four bytes assembled little-endian, at any address, and fails exactly when
that read does. -/
def Obligations.ReadOfAWordIsLittleEndian : Prop :=
  ∀ (m : Memory) (a : Word),
    (∀ w, m.readU32 a = .next w ↔ ∃ b0 b1 b2 b3 : Byte, m.read a 4 = .next [b0, b1, b2, b3] ∧
      w.toNat = b0.toNat + 2 ^ 8 * b1.toNat + 2 ^ 16 * b2.toNat + 2 ^ 24 * b3.toNat) ∧
    (∀ r, m.readU32 a = .fault r ↔ m.read a 4 = .fault r)

/-- 20_memory.md section 3 (D6, D7), for a memory in canonical form: a write succeeds exactly when a read of the same range
does, and then reading the range gives the bytes written, and every byte whose place in its buffer is not one of those
written reads as before; a failed write gives the same report as the read. -/
def Obligations.WriteStoresItsBytesAndNoOthers : Prop :=
  ∀ (m : Memory) (a : Word) (bs : List Byte), m.wf → bs ≠ [] →
    (∀ r, m.read a bs.length = .fault r → m.write a bs = .fault r) ∧
    (∀ old, m.read a bs.length = .next old →
      ∃ m', m.write a bs = .next m' ∧ m'.romLen = m.romLen ∧ m'.read a bs.length = .next bs ∧
        ∀ b, m.owner a bs.length = some b → ∀ (x : Word),
          (∀ c, m.owner x 1 = some c →
            ¬(b.backing a.toNat ≤ c.backing x.toNat ∧ c.backing x.toNat < b.backing a.toNat + bs.length)) →
          m'.read x 1 = m.read x 1)

/-- 20_memory.md section 1 (D6): with an image of `n` bytes loaded, the three windows give the same bytes at the same
offset, and a write through any of them is seen through all three. -/
def Obligations.CartridgeWindowsShareOneBuffer : Prop :=
  ∀ (m : Memory) (n k len : Nat) (base : Nat), m.wf → m.romLen = some n → 1 ≤ len → k + len ≤ n →
    base ∈ [0x08000000, 0x0A000000, 0x0C000000] →
    (∃ bs, m.read (BitVec.ofNat 32 (base + k)) len = .next bs ∧
      m.read (BitVec.ofNat 32 (0x08000000 + k)) len = .next bs) ∧
    (∀ data : List Byte, data.length = len → ∃ m', m.write (BitVec.ofNat 32 (base + k)) data = .next m' ∧
      m'.read (BitVec.ofNat 32 (0x08000000 + k)) len = .next data ∧
      m'.read (BitVec.ofNat 32 (0x0A000000 + k)) len = .next data ∧
      m'.read (BitVec.ofNat 32 (0x0C000000 + k)) len = .next data)

/-- 20_memory.md R59: `load_cartridge` installs the three windows over one buffer initialised to the image, whatever was
loaded before, and changes no other block; nothing past the image is mapped. -/
def Obligations.LoadCartridgeReplacesTheBuffer : Prop :=
  ∀ (m : Memory) (data : List Byte), m.wf → data.length ≤ 0x02000000 →
    ∃ m', m.loadCartridge data = .next m' ∧ m'.romLen = some data.length ∧
      (∀ base ∈ [0x08000000, 0x0A000000, 0x0C000000],
        (data ≠ [] → m'.read (BitVec.ofNat 32 base) data.length = .next data) ∧
        (∀ k, data.length ≤ k → k < 0x02000000 → ∀ n, 1 ≤ n → m'.read (BitVec.ofNat 32 (base + k)) n =
          .fault (.addressingFault (BitVec.ofNat 32 (base + k)) n))) ∧
      (∀ (a : Word) (n : Nat), a.toNat < 0x08000000 ∨ 0x0E000000 ≤ a.toNat → m'.read a n = m.read a n)

/-- 20_memory.md section 1, the list of unmapped ranges: an access of at least one byte that begins in a gap of the map is
refused, with or without a cartridge; without one, everything from 0x07000400 to 0x0DFFFFFF is a gap. -/
def Obligations.AccessesInTheGapsAreRefused : Prop :=
  ∀ (m : Memory) (a : Word) (n : Nat), m.wf → 1 ≤ n →
    ((0x00004000 ≤ a.toNat ∧ a.toNat ≤ 0x01FFFFFF) ∨ (0x02040000 ≤ a.toNat ∧ a.toNat ≤ 0x02FFFFFF) ∨
     (0x03008000 ≤ a.toNat ∧ a.toNat ≤ 0x03FFFFFF) ∨ (0x04000400 ≤ a.toNat ∧ a.toNat ≤ 0x04FFFFFF) ∨
     (0x05000400 ≤ a.toNat ∧ a.toNat ≤ 0x05FFFFFF) ∨ (0x06018000 ≤ a.toNat ∧ a.toNat ≤ 0x06FFFFFF) ∨
     (0x07000400 ≤ a.toNat ∧ a.toNat ≤ 0x07FFFFFF) ∨ (0x0E010000 ≤ a.toNat) ∨
     (m.romLen = none ∧ 0x07000400 ≤ a.toNat ∧ a.toNat ≤ 0x0DFFFFFF) ∨
     (∃ l base, m.romLen = some l ∧ base ∈ [0x08000000, 0x0A000000, 0x0C000000] ∧ base + l ≤ a.toNat ∧
       a.toNat ≤ base + 0x01FFFFFF)) →
    m.read a n = .fault (.addressingFault a n)

/-- 20_memory.md sections 1 and 2 (D8, D9): an access of length 0 and an image longer than 0x02000000 bytes are refused by
name, and the state stays as it was. -/
def Obligations.InputsOutsideTheContractAreRefused : Prop :=
  ∀ (s : State) (a : Word) (image : List Byte),
    performOp (.read a 0) s = (.refused .zeroLengthAccess, s) ∧ performOp (.write a []) s = (.refused .zeroLengthAccess, s) ∧
    (0x02000000 < image.length →
      performOp (.load image) s = (.refused (.imageTooLong image.length), s) ∧
      performOp (.loadCartridge image) s = (.refused (.imageTooLong image.length), s))

/-- 20_memory.md section 3 (D29): after a bus reset, whatever was there, a read that succeeds gives zeros, no address from
0x08000000 to 0x0DFFFFFF is mapped, and the register file is untouched. -/
def Obligations.BusResetZeroesAndUnmapsTheCartridge : Prop :=
  ∀ (s : State) (a : Word) (n : Nat), 1 ≤ n →
    (∀ bs, s.resetBus.mem.read a n = .next bs → bs = List.replicate n 0) ∧
    (0x08000000 ≤ a.toNat → a.toNat ≤ 0x0DFFFFFF → s.resetBus.mem.read a n = .fault (.addressingFault a n)) ∧
    s.resetBus.mode = s.mode ∧ (∀ c, s.resetBus.readCell c = s.readCell c) ∧ StatusKept s s.resetBus

/-! ## Invariants and isolation -/

/-- The memory is in canonical form in the state after reset. -/
def Obligations.ResetStateMeetsTheInvariant : Prop := State.reset.Inv

/-- The canonical form of the memory (log 6: strictly rising addresses, no zero byte listed, every listed address that of a
byte of an installed block, the image within 20_memory.md R72) is kept by every step and by every operation of the host
interface, a step that ends in a report among them. -/
def Obligations.EveryOperationKeepsTheInvariant : Prop :=
  (∀ s t : State, s.Inv → step s = .next t → t.Inv) ∧
  (∀ (op : HostOp) (s : State), s.Inv → (performOp op s).2.Inv)

/-- 60_exceptions.md section 1 (D18): an operation that ends in a report or a refusal leaves the whole state as it was; a
step does so too for every report but `DecodeMiss`. -/
def Obligations.ReportsLeaveTheStateUnchanged : Prop :=
  ∀ (op : HostOp) (s : State),
    (∀ r, (performOp op s).1 = .report r → (performOp op s).2 = s) ∧
    (∀ r, (performOp op s).1 = .refused r → (performOp op s).2 = s) ∧
    (∀ o, (performOp op s).1 = .stepped o → o ≠ .executed → o ≠ .skipped → (∀ pc w, o ≠ .decodeMiss pc w) →
      (performOp op s).2 = s)

/-- 10_state.md sections 3 and 5: what a mode cannot reach a step cannot change: every cell that no index resolves to under
the current mode, and every SPSR but the current mode's, stay as they were. -/
def Obligations.StepsLeaveOtherModesRegistersAlone : Prop :=
  ∀ s t : State, step s = .next t →
    (∀ c, Hidden s.mode c → t.readCell c = s.readCell c) ∧
    (∀ k, s.mode.spsr? ≠ some k → t.readSpsr k = s.readSpsr k)

/-- 10_state.md sections 3 and 5: nor can a step learn it: two states that agree on the mode, the sixteen logical registers,
CPSR, the visible SPSR and the memory step alike, to the same report or to next states that agree again, and so for any
number of steps. -/
def Obligations.StepsAreBlindToOtherModesRegisters : Prop :=
  (∀ s t : State, SameView s t → SameOutcome (step s) (step t)) ∧
  (∀ (k : Nat) (s t : State), SameView s t →
    SameOutcome (Host.Core.run Sys2Proof.core k s) (Host.Core.run Sys2Proof.core k t))
end

