-- ==== Sys2Proof/Laws/Memory.lean ====
section
/-! SUPPORT. The bytes of the memory: reading after writing, and the canonical form of the cell list. -/

namespace Sys2Proof.Machine

/-- A cell list with strictly rising addresses. -/
abbrev Rising (cs : List Host.Cell) : Prop := cs.Pairwise (fun a b => a.1 < b.1)

theorem byteAt_absent {j : Nat} {cs : List Host.Cell} (h : ∀ c ∈ cs, c.1 ≠ j) : byteAt j cs = unlistedByte := by
  induction cs with
  | nil => rfl
  | cons c cs ih =>
    obtain ⟨a, b⟩ := c
    have := h (a, b) (by simp)
    simp only [byteAt, this, if_false]
    exact ih fun c hc => h c (by simp [hc])

theorem byteAt_append_left {j : Nat} {l₁ l₂ : List Host.Cell} (h : ∀ c ∈ l₂, c.1 ≠ j) :
    byteAt j (l₁ ++ l₂) = byteAt j l₁ := by
  induction l₁ with
  | nil => simpa [byteAt] using byteAt_absent h
  | cons c l₁ ih => obtain ⟨a, b⟩ := c; simp [byteAt, ih]

theorem byteAt_append_right {j : Nat} {l₁ l₂ : List Host.Cell} (h : ∀ c ∈ l₁, c.1 ≠ j) :
    byteAt j (l₁ ++ l₂) = byteAt j l₂ := by
  induction l₁ with
  | nil => rfl
  | cons c l₁ ih =>
    obtain ⟨a, b⟩ := c
    have := h (a, b) (by simp)
    simp only [List.cons_append, byteAt, this, if_false]
    exact ih fun c hc => h c (by simp [hc])

theorem byteAt_filter (j : Nat) (p : Nat → Bool) (cs : List Host.Cell) :
    byteAt j (cs.filter (fun c => p c.1)) = if p j then byteAt j cs else unlistedByte := by
  induction cs with
  | nil => simp [byteAt]
  | cons c cs ih =>
    obtain ⟨a, b⟩ := c
    by_cases ha : p a = true <;> by_cases hj : a = j <;> simp_all [byteAt]

theorem mem_setByte {k : Nat} {b : Byte} {cs : List Host.Cell} {c : Host.Cell} (h : c ∈ setByte k b cs) :
    c ∈ cs ∨ (c = (k, b) ∧ b ≠ unlistedByte) := by
  induction cs with
  | nil => simp only [setByte] at h; split at h <;> simp_all
  | cons d cs ih =>
    obtain ⟨a, e⟩ := d
    simp only [setByte] at h
    split at h
    · rcases List.mem_cons.mp h with h | h
      · simp [h]
      · rcases ih h with h | h
        · simp [h]
        · exact .inr h
    · split at h <;> split at h <;> simp_all <;> tauto

theorem rising_setByte {k : Nat} {b : Byte} {cs : List Host.Cell} (h : Rising cs) : Rising (setByte k b cs) := by
  induction cs with
  | nil => simp only [setByte]; split <;> simp [Rising]
  | cons d cs ih =>
    obtain ⟨a, e⟩ := d
    obtain ⟨h₁, h₂⟩ := List.pairwise_cons.mp h
    simp only [setByte]
    split
    · refine List.pairwise_cons.mpr ⟨fun c hc => ?_, ih h₂⟩
      rcases mem_setByte hc with hc | ⟨rfl, _⟩
      · exact h₁ c hc
      · assumption
    · split
      · subst_vars
        split
        · exact h₂
        · exact List.pairwise_cons.mpr ⟨h₁, h₂⟩
      · split
        · exact h
        · refine List.pairwise_cons.mpr ⟨fun c hc => ?_, h⟩
          rcases List.mem_cons.mp hc with rfl | hc
          · show k < a; omega
          · have := h₁ c hc; show k < c.1; simp only at this; omega

theorem byteAt_setByte {k : Nat} {b : Byte} {cs : List Host.Cell} (h : Rising cs) (j : Nat) :
    byteAt j (setByte k b cs) = if j = k then b else byteAt j cs := by
  induction cs with
  | nil => by_cases hb : b = unlistedByte <;> by_cases hj : j = k <;> simp_all [setByte, byteAt, eq_comm]
  | cons d cs ih =>
    obtain ⟨a, e⟩ := d
    obtain ⟨h₁, h₂⟩ := List.pairwise_cons.mp h
    have gone : ∀ {x : Nat}, x ≤ a → byteAt x cs = unlistedByte := fun hx =>
      byteAt_absent fun c hc => by have := h₁ c hc; simp only at this; omega
    simp only [setByte]
    split
    · simp only [byteAt, ih h₂]
      split <;> split <;> first | rfl | omega
    · split
      · subst_vars
        split
        · subst_vars
          by_cases hj : j = a
          · subst hj; simpa using gone (Nat.le_refl _)
          · simp [byteAt, hj, Ne.symm hj]
        · by_cases hj : j = a <;> simp [byteAt, hj, eq_comm]
      · have hka : k ≤ a := by omega
        split
        · by_cases hj : j = k
          · subst hj; subst_vars; simp [byteAt, gone hka]; omega
          · simp [hj]
        · by_cases hj : j = k
          · subst hj; simp [byteAt]
          · simp [byteAt, hj, Ne.symm hj]

theorem rising_setBytes {bs : List Byte} {k : Nat} {cs : List Host.Cell} (h : Rising cs) : Rising (setBytes k bs cs) := by
  induction bs generalizing k cs with
  | nil => exact h
  | cons b bs ih => exact ih (rising_setByte h)

theorem mem_setBytes {bs : List Byte} {k : Nat} {cs : List Host.Cell} {c : Host.Cell} (h : c ∈ setBytes k bs cs) :
    c ∈ cs ∨ (k ≤ c.1 ∧ c.1 < k + bs.length ∧ c.2 ≠ unlistedByte) := by
  induction bs generalizing k cs with
  | nil => exact .inl h
  | cons b bs ih =>
    rcases ih h with h | h
    · rcases mem_setByte h with h | ⟨rfl, hb⟩
      · exact .inl h
      · exact .inr ⟨Nat.le_refl _, by simp, hb⟩
    · exact .inr ⟨by omega, by simp only [List.length_cons]; omega, h.2.2⟩

/-- A byte after a run of bytes is written: the written one inside the run, the old one outside. -/
theorem byteAt_setBytes {bs : List Byte} {k : Nat} {cs : List Host.Cell} (h : Rising cs) (j : Nat) :
    byteAt j (setBytes k bs cs) = if hj : k ≤ j ∧ j < k + bs.length then bs[j - k] else byteAt j cs := by
  induction bs generalizing k cs with
  | nil => simp [setBytes]
  | cons b bs ih =>
    simp only [setBytes, ih (rising_setByte h), byteAt_setByte h, List.length_cons]
    by_cases hjk : j = k
    · subst hjk; simp
    · by_cases hin : k ≤ j ∧ j < k + (bs.length + 1)
      · have h1 : k + 1 ≤ j ∧ j < k + 1 + bs.length := by omega
        have e : j - k = (j - (k + 1)) + 1 := by omega
        simp only [h1, hin, and_self, dite_true, e, List.getElem_cons_succ]
      · have h1 : ¬(k + 1 ≤ j ∧ j < k + 1 + bs.length) := by omega
        rw [dif_neg h1, dif_neg hin]; simp [hjk]

theorem mem_cellsOf {bs : List Byte} {k : Nat} {c : Host.Cell} (h : c ∈ cellsOf k bs) :
    k ≤ c.1 ∧ c.1 < k + bs.length ∧ c.2 ≠ unlistedByte := by
  induction bs generalizing k with
  | nil => simp [cellsOf] at h
  | cons b bs ih =>
    have up : c ∈ cellsOf (k + 1) bs → k ≤ c.1 ∧ c.1 < k + (b :: bs).length ∧ c.2 ≠ unlistedByte := fun h => by
      have := ih h; simp only [List.length_cons]; exact ⟨by omega, by omega, this.2.2⟩
    simp only [cellsOf] at h
    split at h
    · exact up h
    · rcases List.mem_cons.mp h with rfl | h
      · exact ⟨Nat.le_refl _, by simp, by assumption⟩
      · exact up h

theorem rising_cellsOf (k : Nat) (bs : List Byte) : Rising (cellsOf k bs) := by
  induction bs generalizing k with
  | nil => simp [cellsOf, Rising]
  | cons b bs ih =>
    simp only [cellsOf]
    split
    · exact ih _
    · exact List.pairwise_cons.mpr ⟨fun c hc => by have := mem_cellsOf hc; show k < c.1; omega, ih _⟩

theorem byteAt_cellsOf (bs : List Byte) (k j : Nat) :
    byteAt j (cellsOf k bs) = if hj : k ≤ j ∧ j < k + bs.length then bs[j - k] else unlistedByte := by
  induction bs generalizing k with
  | nil => simp [cellsOf, byteAt]
  | cons b bs ih =>
    have body : byteAt j (cellsOf k (b :: bs)) = if j = k then b else byteAt j (cellsOf (k + 1) bs) := by
      simp only [cellsOf]
      split
      · rename_i hb
        by_cases hj : j = k
        · subst hj; simp only [if_true, hb]
          exact byteAt_absent fun c hc => by have := mem_cellsOf hc; omega
        · simp [hj]
      · by_cases hj : j = k <;> simp [byteAt, hj, eq_comm]
    rw [body, ih]
    by_cases hjk : j = k
    · subst hjk; simp
    · by_cases hin : k ≤ j ∧ j < k + (b :: bs).length
      · have h1 : k + 1 ≤ j ∧ j < k + 1 + bs.length := by simp only [List.length_cons] at hin; omega
        have e : j - k = (j - (k + 1)) + 1 := by omega
        rw [dif_pos h1, dif_pos hin]; simp only [hjk, if_false, e, List.getElem_cons_succ]
      · have h1 : ¬(k + 1 ≤ j ∧ j < k + 1 + bs.length) := by simp only [List.length_cons] at hin; omega
        rw [dif_neg h1, dif_neg hin]; simp [hjk]

@[simp] theorem bytesAt_length (k : Nat) (cs : List Host.Cell) (n : Nat) : (bytesAt k cs n).length = n := by
  induction n generalizing k with
  | zero => rfl
  | succ n ih => simp [bytesAt, ih]

theorem bytesAt_getElem (k : Nat) (cs : List Host.Cell) (n i : Nat) (h : i < (bytesAt k cs n).length) :
    (bytesAt k cs n)[i] = byteAt (k + i) cs := by
  induction n generalizing k i with
  | zero => simp at h
  | succ n ih =>
    cases i with
    | zero => rfl
    | succ i =>
      simp only [bytesAt, List.getElem_cons_succ]
      rw [ih (k + 1) i (by simpa using h)]; congr 1; omega

theorem bytesAt_congr {k : Nat} {cs ds : List Host.Cell} {n : Nat} (h : ∀ i < n, byteAt (k + i) cs = byteAt (k + i) ds) :
    bytesAt k cs n = bytesAt k ds n :=
  List.ext_getElem (by simp) fun i h₁ h₂ => by
    rw [bytesAt_getElem, bytesAt_getElem]; exact h i (by simpa using h₁)

/-- Bytes read where they were stored. -/
theorem bytesAt_setBytes {bs : List Byte} {k : Nat} {cs : List Host.Cell} (h : Rising cs) :
    bytesAt k (setBytes k bs cs) bs.length = bs :=
  List.ext_getElem (by simp) fun i h₁ h₂ => by
    rw [bytesAt_getElem, byteAt_setBytes h]; simp [h₂]

end Sys2Proof.Machine
end

