-- ==== Sys2Proof/Laws/Bus.lean ====
section
/-! SUPPORT. The bus: which block serves an access, what each operation can answer, and that every operation keeps the
canonical form of the memory. -/

namespace Sys2Proof.Machine

theorem greatestBase_spec {a : Nat} {bs : List Block} {b : Block} (h : greatestBase a bs = some b) :
    b ∈ bs ∧ b.base ≤ a ∧ ∀ c ∈ bs, c.base ≤ a → c.base ≤ b.base := by
  induction bs generalizing b with
  | nil => simp [greatestBase] at h
  | cons d bs ih =>
    simp only [greatestBase] at h
    cases hg : greatestBase a bs with
    | none =>
      have none_le : ∀ c ∈ bs, ¬c.base ≤ a := by
        clear ih h
        intro c hc
        induction bs with
        | nil => simp at hc
        | cons e bs ih =>
          simp only [greatestBase] at hg
          split at hg
          · rename_i hg'
            split at hg
            · cases hg
            · rcases List.mem_cons.mp hc with rfl | hc
              · assumption
              · exact ih hg' hc
          · split at hg <;> cases hg
      rw [hg] at h
      simp only at h
      split at h
      · cases h
        exact ⟨by simp, by assumption, fun c hc ha => by
          rcases List.mem_cons.mp hc with rfl | hc
          · exact Nat.le_refl _
          · exact absurd ha (none_le c hc)⟩
      · cases h
    | some e =>
      obtain ⟨hm, hle, hmax⟩ := ih hg
      rw [hg] at h
      simp only at h
      split at h
      · rename_i hd
        cases h
        exact ⟨by simp, hd.1, fun c hc ha => by
          rcases List.mem_cons.mp hc with rfl | hc
          · exact Nat.le_refl _
          · exact Nat.le_trans (hmax c hc ha) hd.2⟩
      · rename_i hd
        cases h
        exact ⟨by simp [hm], hle, fun c hc ha => by
          rcases List.mem_cons.mp hc with rfl | hc
          · omega
          · exact hmax c hc ha⟩

theorem greatestBase_isSome {a : Nat} {bs : List Block} {b : Block} (hb : b ∈ bs) (h : b.base ≤ a) :
    (greatestBase a bs).isSome := by
  induction bs with
  | nil => simp at hb
  | cons d bs ih =>
    simp only [greatestBase]
    cases hg : greatestBase a bs with
    | some e => simp only; split <;> rfl
    | none =>
      rcases List.mem_cons.mp hb with rfl | hb
      · simp [h]
      · have := ih hb; simp [hg] at this

/-- The boot ROM is always installed, so an address always resolves (20_memory.md R54). -/
theorem resolve_isSome (m : Memory) (addr : Word) : (m.resolve addr).isSome := by
  refine greatestBase_isSome (b := ⟨.bootRom, 0x00000000, 0x00004000⟩) ?_ (Nat.zero_le _)
  unfold Memory.blocks; split <;> simp [blocksBelowRom]

/-- Everything that serving an access says. -/
theorem owner_spec {m : Memory} {addr : Word} {len : Nat} {b : Block} (h : m.owner addr len = some b) :
    b ∈ m.blocks ∧ b.base ≤ addr.toNat ∧ addr.toNat - b.base + len ≤ b.size ∧
      ∀ c ∈ m.blocks, c.base ≤ addr.toNat → c.base ≤ b.base := by
  obtain ⟨hr, hi⟩ := Option.filter_eq_some_iff.mp h
  obtain ⟨hm, hle, hmax⟩ := greatestBase_spec hr
  simp only [Block.inRange, Bool.and_eq_true, decide_eq_true_eq] at hi
  exact ⟨hm, hle, hi.2, hmax⟩

/-- Installed blocks with one base are one block. -/
theorem blocks_base_injective {m : Memory} {b c : Block} (hb : b ∈ m.blocks) (hc : c ∈ m.blocks) (h : b.base = c.base) :
    b = c := by
  have nodup : (m.blocks.map (·.base)).Nodup := by
    unfold Memory.blocks; split <;> simp [blocksBelowRom, blocksAboveRom, romWindows]
  exact List.inj_on_of_nodup_map nodup hb hc h

/-- Which block serves an access. -/
theorem owner_eq_some {m : Memory} {addr : Word} {len : Nat} {b : Block} : m.owner addr len = some b ↔
    b ∈ m.blocks ∧ b.base ≤ addr.toNat ∧ addr.toNat - b.base + len ≤ b.size ∧
      ∀ c ∈ m.blocks, c.base ≤ addr.toNat → c.base ≤ b.base := by
  refine ⟨owner_spec, fun ⟨hb, hle, hlen, hmax⟩ => ?_⟩
  obtain ⟨c, hc⟩ := Option.isSome_iff_exists.mp (resolve_isSome m addr)
  obtain ⟨hcm, hcle, hcmax⟩ := greatestBase_spec hc
  obtain rfl := blocks_base_injective hb hcm (Nat.le_antisymm (hcmax b hb hle) (hmax c hcm hcle))
  rw [Memory.owner, hc]
  simp [Block.inRange, hle, hlen]

/-- A byte of an access that a block serves is listed where `Memory.backs` allows it. -/
theorem backs_of_owner {m : Memory} {addr : Word} {len k : Nat} {b : Block} (h : m.owner addr len = some b)
    (h₁ : b.backing addr.toNat ≤ k) (h₂ : k < b.backing addr.toNat + len) : m.backs k = true := by
  obtain ⟨hm, hle, hlen, -⟩ := owner_spec h
  have plain : b ∈ blocksBelowRom ++ blocksAboveRom → b.name ≠ .cartridgeRom → m.backs k = true := fun hb hn => by
    have : b.backing addr.toNat = addr.toNat := by unfold Block.backing; split <;> simp_all
    rw [this] at h₁ h₂
    simp only [Memory.backs, Bool.or_eq_true, List.any_eq_true]
    exact .inl ⟨b, hb, by simp; omega⟩
  have hname : ∀ c ∈ blocksBelowRom ++ blocksAboveRom, c.name ≠ .cartridgeRom := by decide
  unfold Memory.blocks at hm
  cases hr : m.romLen with
  | none => rw [hr] at hm; exact plain hm (hname b hm)
  | some n =>
    rw [hr] at hm
    simp only [List.mem_append] at hm
    have window : b ∈ romWindows n → m.backs k = true := fun hb => by
      have hb' : b.name = .cartridgeRom ∧ b.size = n := by simp [romWindows] at hb; rcases hb with rfl | rfl | rfl <;> simp
      have e : b.backing addr.toNat = romBase + (addr.toNat - b.base) := by simp [Block.backing, hb'.1]
      rw [e] at h₁ h₂
      simp only [Memory.backs, hr, Bool.or_eq_true, Bool.and_eq_true, decide_eq_true_eq]
      exact .inr (by omega)
    rcases hm with (hm | hm) | hm
    · exact plain (by simp [hm]) (hname b (by simp [hm]))
    · exact window hm
    · exact plain (by simp [hm]) (hname b (by simp [hm]))

/-! ## What each operation answers -/

theorem read_eq_next {m : Memory} {addr : Word} {len : Nat} {bs : List Byte} :
    m.read addr len = .next bs ↔
      len ≠ 0 ∧ ∃ b, m.owner addr len = some b ∧ bs = bytesAt (b.backing addr.toNat) m.cells len := by
  unfold Memory.read
  split
  · simp_all
  · cases m.owner addr len <;> simp_all [eq_comm]

theorem readU32_eq_next {m : Memory} {addr w : Word} :
    m.readU32 addr = .next w ↔
      ∃ b, m.owner addr 4 = some b ∧ w = leWord (bytesAt (b.backing addr.toNat) m.cells 4) := by
  unfold Memory.readU32 Memory.read
  cases m.owner addr 4 <;> simp_all [eq_comm]

theorem readU32_fault {m : Memory} {addr : Word} (h : m.owner addr 4 = none) :
    m.readU32 addr = .fault (.addressingFault addr 4) := by
  simp [Memory.readU32, Memory.read, h]

theorem readU32_cases (m : Memory) (addr : Word) :
    (∃ w, m.readU32 addr = .next w) ∨ m.readU32 addr = .fault (.addressingFault addr 4) := by
  cases h : m.owner addr 4 with
  | none => exact .inr (readU32_fault h)
  | some b => exact .inl ⟨_, readU32_eq_next.mpr ⟨b, h, rfl⟩⟩

theorem write_eq_next {m m' : Memory} {addr : Word} {bs : List Byte} :
    m.write addr bs = .next m' ↔
      bs.length ≠ 0 ∧ ∃ b, m.owner addr bs.length = some b ∧
        m' = { m with cells := setBytes (b.backing addr.toNat) bs m.cells } := by
  unfold Memory.write
  split
  · simp_all
  · cases m.owner addr bs.length <;> simp_all [eq_comm]

theorem loadCartridge_eq_next {m m' : Memory} {data : List Byte} :
    m.loadCartridge data = .next m' ↔
      data.length ≤ Config.maxRomLen ∧
      m' = { romLen := some data.length
             cells := m.cells.filter (fun c => decide (c.1 < romBase)) ++ cellsOf romBase data
               ++ m.cells.filter (fun c => decide (romEnd ≤ c.1)) } := by
  unfold Memory.loadCartridge
  split <;> simp_all [eq_comm]

/-! ## The canonical form is kept -/

theorem wf_initial : Memory.initial.wf := by simp [Memory.wf, Memory.initial]

theorem wf_write {m m' : Memory} {addr : Word} {bs : List Byte} (hw : m.wf) (h : m.write addr bs = .next m') : m'.wf := by
  obtain ⟨-, b, ho, rfl⟩ := write_eq_next.mp h
  obtain ⟨h₁, h₂, h₃⟩ := hw
  refine ⟨rising_setBytes h₁, fun c hc => ?_, h₃⟩
  rcases mem_setBytes hc with hc | ⟨hl, hu, hb⟩
  · exact h₂ c hc
  · exact ⟨hb, backs_of_owner ho hl hu⟩

/-- Where a byte of a block other than the cartridge is listed, it is listed whatever image is loaded. -/
theorem backs_outside_rom {m : Memory} {k : Nat} (n : Option Nat) (cs : List Host.Cell) (hlen : ∀ l ∈ m.romLen, l ≤ Config.maxRomLen)
    (h : m.backs k = true) (hk : k < romBase ∨ romEnd ≤ k) : Memory.backs ⟨n, cs⟩ k = true := by
  simp only [Memory.backs, Bool.or_eq_true] at h ⊢
  rcases h with h | h
  · exact .inl h
  · cases hr : m.romLen with
    | none => simp [hr] at h
    | some l =>
      have := hlen l (by simp [hr])
      simp only [hr, Bool.and_eq_true, decide_eq_true_eq] at h
      simp only [romBase, romEnd, Config.maxRomLen] at *
      omega

theorem wf_loadCartridge {m m' : Memory} {data : List Byte} (hw : m.wf) (h : m.loadCartridge data = .next m') : m'.wf := by
  obtain ⟨hlen, rfl⟩ := loadCartridge_eq_next.mp h
  obtain ⟨h₁, h₂, h₃⟩ := hw
  have hlen' : data.length ≤ 0x02000000 := hlen
  refine ⟨?_, fun c hc => ?_, fun n hn => by simp at hn; subst hn; exact hlen⟩
  · refine List.pairwise_append.mpr ⟨List.pairwise_append.mpr ⟨h₁.filter _, rising_cellsOf _ _, ?_⟩, h₁.filter _, ?_⟩
    · intro a ha b hb
      have h1 := (List.mem_filter.mp ha).2
      have h2 := mem_cellsOf hb
      simp only [decide_eq_true_eq] at h1
      omega
    · intro a ha b hb
      have h2 := (List.mem_filter.mp hb).2
      simp only [decide_eq_true_eq] at h2
      rcases List.mem_append.mp ha with ha | ha
      · have h1 := (List.mem_filter.mp ha).2
        have h1' : a.1 < romBase := of_decide_eq_true h1
        simp only [romBase, romEnd] at h1' h2; omega
      · have h1 := mem_cellsOf ha
        simp only [romBase, romEnd] at h1 h2; omega
  · simp only [List.mem_append, List.mem_filter, decide_eq_true_eq] at hc
    rcases hc with (⟨hc, hk⟩ | hc) | ⟨hc, hk⟩
    · exact ⟨(h₂ c hc).1, backs_outside_rom _ _ h₃ (h₂ c hc).2 (.inl hk)⟩
    · obtain ⟨a, b, z⟩ := mem_cellsOf hc
      refine ⟨z, ?_⟩
      simp only [Memory.backs, Bool.or_eq_true, Bool.and_eq_true, decide_eq_true_eq]
      exact .inr ⟨a, b⟩
    · exact ⟨(h₂ c hc).1, backs_outside_rom _ _ h₃ (h₂ c hc).2 (.inr hk)⟩

end Sys2Proof.Machine
end

