-- ==== Sys2Proof/Laws/Decode.lean ====
section
/-! SUPPORT. The decoder as a chain of mask tests, masks and fields as facts about single bits, and the codes of
conditions, shift types and registers read back. -/

namespace Sys2Proof

/-- Words are equal when their 32 bits are. -/
theorem word_eq_iff (a b : Word) : a = b ↔ ∀ k : Fin 32, a.getLsbD k = b.getLsbD k :=
  ⟨fun h => by simp [h], fun h => BitVec.eq_of_getLsbD_eq fun k hk => h ⟨k, hk⟩⟩

/-- A field has a value when its bits do. -/
theorem field_eq_iff {n : Nat} (w : Word) (lo : Nat) (v : BitVec n) :
    w.extractLsb' lo n = v ↔ ∀ k : Fin n, w.getLsbD (lo + k) = v.getLsbD k :=
  ⟨fun h k => by rw [← h]; simp, fun h => BitVec.eq_of_getLsbD_eq fun k hk => by simpa [hk] using h ⟨k, hk⟩⟩

/-- The decoder, entry by entry (30_encoding.md R82, R83). -/
theorem decode_chain (w : Word) : decode w =
    if w &&& 0x0FB0F000#32 = 0x0320F000#32 then some (decodePsrImm w)
    else if w &&& 0x0FB0F0F0#32 = 0x0120F000#32 then some (decodePsrReg w)
    else if w &&& 0x0FE00000#32 = 0x03A00000#32 then some (decodeMovImm w)
    else if w &&& 0x0FE00010#32 = 0x01A00000#32 then some (decodeMovRegImm w)
    else if w &&& 0x0FE00090#32 = 0x01A00010#32 then some (decodeMovRegReg w)
    else if w &&& 0x0E000000#32 = 0x0A000000#32 then some (decodeBranch w)
    else none := by
  simp only [decode, classify, classTable, List.find?, ClassEntry.matchesWord]
  repeat' split
  all_goals simp_all [decodeClass]

/-- A word with the fixed bits `v` under `m` does not have `V` under `M` where the two disagree on a common bit. -/
theorem mask_conflict {w m v M V : Word} (h : w &&& m = v) (hne : V &&& m ≠ v &&& M) : w &&& M ≠ V := by
  intro hM
  apply hne
  rw [← hM, ← h, BitVec.and_assoc, BitVec.and_assoc, BitVec.and_comm M m]

/-- A word with the fixed bits `v` under `m` has what they imply under a mask within `m`. -/
theorem mask_implied {w m v M V : Word} (h : w &&& m = v) (hM : m &&& M = M) (hV : v &&& M = V) : w &&& M = V := by
  rw [← hV, ← h, BitVec.and_assoc, hM]

theorem decode_of_psrImm {w : Word} (h : w &&& 0x0FB0F000#32 = 0x0320F000#32) : decode w = some (decodePsrImm w) := by
  rw [decode_chain, if_pos h]

theorem decode_of_psrReg {w : Word} (h : w &&& 0x0FB0F0F0#32 = 0x0120F000#32) : decode w = some (decodePsrReg w) := by
  rw [decode_chain, if_neg (mask_conflict h (by decide)), if_pos h]

theorem decode_of_movImm {w : Word} (h : w &&& 0x0FE00000#32 = 0x03A00000#32) : decode w = some (decodeMovImm w) := by
  rw [decode_chain, if_neg (mask_conflict h (by decide)), if_neg (mask_conflict h (by decide)), if_pos h]

theorem decode_of_movRegImm {w : Word} (h : w &&& 0x0FE00010#32 = 0x01A00000#32) :
    decode w = some (decodeMovRegImm w) := by
  rw [decode_chain, if_neg (mask_conflict h (by decide)), if_neg (mask_conflict h (by decide)),
    if_neg (mask_conflict h (by decide)), if_pos h]

theorem decode_of_movRegReg {w : Word} (h : w &&& 0x0FE00090#32 = 0x01A00010#32) :
    decode w = some (decodeMovRegReg w) := by
  rw [decode_chain, if_neg (mask_conflict h (by decide)), if_neg (mask_conflict h (by decide)),
    if_neg (mask_conflict h (by decide)), if_neg (mask_conflict h (by decide)), if_pos h]

theorem decode_of_branch {w : Word} (h : w &&& 0x0E000000#32 = 0x0A000000#32) : decode w = some (decodeBranch w) := by
  rw [decode_chain, if_neg (mask_conflict h (by decide)), if_neg (mask_conflict h (by decide)),
    if_neg (mask_conflict h (by decide)), if_neg (mask_conflict h (by decide)), if_neg (mask_conflict h (by decide)),
    if_pos h]

/-- A word that decodes matches the entry of the class table that its instruction comes from. -/
theorem decode_cases {w : Word} {i : Instr} (h : decode w = some i) :
    (w &&& 0x0FB0F000#32 = 0x0320F000#32 ∧ i = decodePsrImm w) ∨ (w &&& 0x0FB0F0F0#32 = 0x0120F000#32 ∧ i = decodePsrReg w) ∨
    (w &&& 0x0FE00000#32 = 0x03A00000#32 ∧ i = decodeMovImm w) ∨
    (w &&& 0x0FE00010#32 = 0x01A00000#32 ∧ i = decodeMovRegImm w) ∨
    (w &&& 0x0FE00090#32 = 0x01A00010#32 ∧ i = decodeMovRegReg w) ∨
    (w &&& 0x0E000000#32 = 0x0A000000#32 ∧ i = decodeBranch w) := by
  rw [decode_chain] at h
  split at h
  · exact .inl ⟨‹_›, by simpa using h.symm⟩
  split at h
  · exact .inr (.inl ⟨‹_›, by simpa using h.symm⟩)
  split at h
  · exact .inr (.inr (.inl ⟨‹_›, by simpa using h.symm⟩))
  split at h
  · exact .inr (.inr (.inr (.inl ⟨‹_›, by simpa using h.symm⟩)))
  split at h
  · exact .inr (.inr (.inr (.inr (.inl ⟨‹_›, by simpa using h.symm⟩))))
  split at h
  · exact .inr (.inr (.inr (.inr (.inr ⟨‹_›, by simpa using h.symm⟩))))
  · cases h

/-- A field put back in its place is the word under the field's mask. -/
theorem placed_extract (w : Word) (k n : Nat) : placed (w.extractLsb' k n) k = w &&& placed (BitVec.allOnes n) k := by
  refine BitVec.eq_of_getLsbD_eq fun j hj => ?_
  simp only [placed, BitVec.getLsbD_and, BitVec.getLsbD_shiftLeft, BitVec.getLsbD_setWidth, BitVec.getLsbD_extractLsb',
    BitVec.getLsbD_allOnes, hj, decide_true, Bool.true_and]
  by_cases h : j < k
  · simp [h]
  · simp only [h, decide_false, Bool.not_false, Bool.true_and, show k + (j - k) = j by omega, show j - k < 32 by omega,
      decide_true]
    exact Bool.and_comm _ _

@[simp] theorem condOfBits_condBits (c : Cond) : condOfBits (condBits c) = c := by cases c <;> rfl
@[simp] theorem condBits_condOfBits (b : BitVec 4) : condBits (condOfBits b) = b := by revert b; decide
@[simp] theorem shiftTypeOfBits_bits (t : ShiftType) : shiftTypeOfBits (shiftTypeBits t) = t := by cases t <;> rfl
@[simp] theorem shiftTypeBits_ofBits (b : BitVec 2) : shiftTypeBits (shiftTypeOfBits b) = b := by revert b; decide
@[simp] theorem regOfBits_regBits (r : Reg) : regOfBits (regBits r) = r := by revert r; decide
@[simp] theorem regBits_regOfBits (b : BitVec 4) : regBits (regOfBits b) = b := by revert b; decide

/-- The signed value of a branch offset (30_encoding.md R87). -/
theorem branchOffset_toInt (imm24 : BitVec 24) : (branchOffset imm24).toInt = 4 * imm24.toInt + 8 := by
  have h₁ := imm24.toInt_lt
  have h₂ := imm24.le_toInt
  have e : (imm24.signExtend 32).toInt = imm24.toInt := BitVec.toInt_signExtend_of_le (by omega)
  have e2 : (imm24.signExtend 32 <<< 2) = imm24.signExtend 32 * 4#32 := by
    rw [BitVec.shiftLeft_eq_mul_twoPow]; rfl
  have h4 : (4#32 : Word).toInt = 4 := rfl
  have h8 : (8#32 : Word).toInt = 8 := rfl
  simp only [branchOffset, e2, BitVec.toInt_add, BitVec.toInt_mul, e, h4, h8]
  norm_num [Int.bmod_def] at *
  omega

end Sys2Proof
end

