-- ==== Sys2Proof/Laws/State.lean ====
section
/-! SUPPORT. One lemma per field per update of the state, and reading a cell after each update. -/

namespace Sys2Proof.Machine

variable (s : State) (v : Word) (c : PhysCell) (m : Mode) (k : SpsrMode) (i : Reg) (mem : Memory)

@[simp] theorem withCpsr_cpsr : (s.withCpsr v).cpsr = v := rfl
@[simp] theorem withCpsr_mode : (s.withCpsr v).mode = s.mode := rfl
@[simp] theorem withCpsr_mem : (s.withCpsr v).mem = s.mem := rfl
@[simp] theorem withCpsr_spsr : (s.withCpsr v).spsr = s.spsr := rfl
@[simp] theorem withCpsr_readCell : (s.withCpsr v).readCell c = s.readCell c := by cases c <;> rfl
@[simp] theorem withCpsr_readSpsr : (s.withCpsr v).readSpsr k = s.readSpsr k := rfl
@[simp] theorem withCpsr_get : (s.withCpsr v).get i = s.get i := by simp [State.get]
@[simp] theorem withCpsr_pc : (s.withCpsr v).pc = s.pc := by simp [State.pc]

@[simp] theorem withMode_mode : (s.withMode m).mode = m := rfl
@[simp] theorem withMode_cpsr : (s.withMode m).cpsr = s.cpsr := rfl
@[simp] theorem withMode_mem : (s.withMode m).mem = s.mem := rfl
@[simp] theorem withMode_spsr : (s.withMode m).spsr = s.spsr := rfl
@[simp] theorem withMode_readCell : (s.withMode m).readCell c = s.readCell c := by cases c <;> rfl
@[simp] theorem withMode_readSpsr : (s.withMode m).readSpsr k = s.readSpsr k := rfl

@[simp] theorem withMem_mem : (s.withMem mem).mem = mem := rfl
@[simp] theorem withMem_mode : (s.withMem mem).mode = s.mode := rfl
@[simp] theorem withMem_cpsr : (s.withMem mem).cpsr = s.cpsr := rfl
@[simp] theorem withMem_spsr : (s.withMem mem).spsr = s.spsr := rfl
@[simp] theorem withMem_readCell : (s.withMem mem).readCell c = s.readCell c := by cases c <;> rfl
@[simp] theorem withMem_readSpsr : (s.withMem mem).readSpsr k = s.readSpsr k := rfl
@[simp] theorem withMem_get : (s.withMem mem).get i = s.get i := by simp [State.get]
@[simp] theorem withMem_pc : (s.withMem mem).pc = s.pc := by simp [State.pc]

@[simp] theorem writeSpsr_mode : (s.writeSpsr k v).mode = s.mode := rfl
@[simp] theorem writeSpsr_cpsr : (s.writeSpsr k v).cpsr = s.cpsr := rfl
@[simp] theorem writeSpsr_mem : (s.writeSpsr k v).mem = s.mem := rfl
@[simp] theorem writeSpsr_readCell : (s.writeSpsr k v).readCell c = s.readCell c := by cases c <;> rfl
@[simp] theorem writeSpsr_get : (s.writeSpsr k v).get i = s.get i := by simp [State.get]
@[simp] theorem writeSpsr_pc : (s.writeSpsr k v).pc = s.pc := by simp [State.pc]
@[simp] theorem writeSpsr_readSpsr_same : (s.writeSpsr k v).readSpsr k = v := by cases k <;> rfl
theorem writeSpsr_readSpsr_ne {s : State} {v : Word} {k j : SpsrMode} (h : j ≠ k) :
    (s.writeSpsr k v).readSpsr j = s.readSpsr j := by
  cases k <;> cases j <;> first | rfl | exact absurd rfl h

@[simp] theorem writeCell_mode : (s.writeCell c v).mode = s.mode := by cases c <;> rfl
@[simp] theorem writeCell_cpsr : (s.writeCell c v).cpsr = s.cpsr := by cases c <;> rfl
@[simp] theorem writeCell_mem : (s.writeCell c v).mem = s.mem := by cases c <;> rfl
@[simp] theorem writeCell_spsr : (s.writeCell c v).spsr = s.spsr := by cases c <;> rfl
@[simp] theorem writeCell_readSpsr : (s.writeCell c v).readSpsr k = s.readSpsr k := by simp [State.readSpsr]

@[simp] theorem writeCell_readCell_same : (s.writeCell c v).readCell c = v := by
  cases c with
  | g i => simp [State.writeCell, State.readCell]
  | s i => simp [State.writeCell, State.readCell]
  | f i => simp [State.writeCell, State.readCell]
  | p13 m => cases m <;> rfl
  | p14 m => cases m <;> rfl

theorem writeCell_readCell_ne {s : State} {v : Word} {c d : PhysCell} (h : d ≠ c) :
    (s.writeCell c v).readCell d = s.readCell d := by
  cases c <;> cases d <;> try rfl
  case g.g i j => exact Vector.getElem_set_ne i.isLt j.isLt fun e => h (congrArg _ (Fin.ext e.symm))
  case s.s i j => exact Vector.getElem_set_ne i.isLt j.isLt fun e => h (congrArg _ (Fin.ext e.symm))
  case f.f i j => exact Vector.getElem_set_ne i.isLt j.isLt fun e => h (congrArg _ (Fin.ext e.symm))
  case p13.p13 m n => cases m <;> cases n <;> first | rfl | exact absurd rfl h
  case p14.p14 m n => cases m <;> cases n <;> first | rfl | exact absurd rfl h

theorem writeCell_readCell (s : State) (v : Word) (c d : PhysCell) :
    (s.writeCell c v).readCell d = if d = c then v else s.readCell d := by
  by_cases h : d = c
  · subst h; simp
  · simp [writeCell_readCell_ne h, h]

@[simp] theorem set_mode : (s.set i v).mode = s.mode := by simp [State.set]
@[simp] theorem set_cpsr : (s.set i v).cpsr = s.cpsr := by simp [State.set]
@[simp] theorem set_mem : (s.set i v).mem = s.mem := by simp [State.set]
@[simp] theorem set_spsr : (s.set i v).spsr = s.spsr := by simp [State.set]
@[simp] theorem set_readSpsr : (s.set i v).readSpsr k = s.readSpsr k := by simp [State.set]
theorem set_readCell (s : State) (i : Reg) (v : Word) (c : PhysCell) :
    (s.set i v).readCell c = if c = phys s.mode i then v else s.readCell c := by
  simp [State.set, writeCell_readCell]

@[simp] theorem setPc_mode : (s.setPc v).mode = s.mode := by simp [State.setPc]
@[simp] theorem setPc_cpsr : (s.setPc v).cpsr = s.cpsr := by simp [State.setPc]
@[simp] theorem setPc_mem : (s.setPc v).mem = s.mem := by simp [State.setPc]
@[simp] theorem setPc_spsr : (s.setPc v).spsr = s.spsr := by simp [State.setPc]
@[simp] theorem setPc_readSpsr : (s.setPc v).readSpsr k = s.readSpsr k := by simp [State.setPc]

@[simp] theorem advance_mode : s.advance.mode = s.mode := by simp [State.advance]
@[simp] theorem advance_cpsr : s.advance.cpsr = s.cpsr := by simp [State.advance]
@[simp] theorem advance_mem : s.advance.mem = s.mem := by simp [State.advance]
@[simp] theorem advance_spsr : s.advance.spsr = s.spsr := by simp [State.advance]
@[simp] theorem advance_readSpsr : s.advance.readSpsr k = s.readSpsr k := by simp [State.advance]

@[simp] theorem reset_mode : State.reset.mode = .system := rfl
@[simp] theorem reset_cpsr : State.reset.cpsr = 0 := rfl
@[simp] theorem reset_mem : State.reset.mem = Memory.initial := rfl
@[simp] theorem reset_readSpsr : State.reset.readSpsr k = 0 := by cases k <;> rfl
@[simp] theorem reset_readCell : State.reset.readCell c = 0 := by
  cases c with
  | g i => simp [State.reset, State.readCell]
  | s i => simp [State.reset, State.readCell]
  | f i => simp [State.reset, State.readCell]
  | p13 m => cases m <;> rfl
  | p14 m => cases m <;> rfl

/-- Two states with the same mode, cells, status registers and memory are the same state. -/
theorem state_eq {s t : State} (hm : t.mode = s.mode) (hc : ∀ c, t.readCell c = s.readCell c) (hp : t.cpsr = s.cpsr)
    (hs : ∀ k, t.readSpsr k = s.readSpsr k) (hmem : t.mem = s.mem) : t = s := by
  have hg : t.g = s.g := Vector.ext fun i h => hc (.g ⟨i, h⟩)
  have hy : t.sys = s.sys := Vector.ext fun i h => hc (.s ⟨i, h⟩)
  have hf : t.fiq = s.fiq := Vector.ext fun i h => hc (.f ⟨i, h⟩)
  have h13 : t.p13 = s.p13 := by
    have a := hc (.p13 .supervisor); have b := hc (.p13 .abort); have c := hc (.p13 .irq); have d := hc (.p13 .undefined)
    revert a b c d; cases t; cases s; rename_i p _ _ _ _ _ _ _ _ q _ _ _ _; cases p; cases q
    intro a b c d; simp_all [State.readCell, PrivCells.get]
  have h14 : t.p14 = s.p14 := by
    have a := hc (.p14 .supervisor); have b := hc (.p14 .abort); have c := hc (.p14 .irq); have d := hc (.p14 .undefined)
    revert a b c d; cases t; cases s; rename_i p _ _ _ _ _ _ _ _ q _ _ _; cases p; cases q
    intro a b c d; simp_all [State.readCell, PrivCells.get]
  have hsp : t.spsr = s.spsr := by
    have a := hs .fiq; have b := hs .supervisor; have c := hs .abort; have d := hs .irq; have e := hs .undefined
    revert a b c d e; cases t; cases s; rename_i p _ _ _ _ _ _ _ _ q _; cases p; cases q
    intro a b c d e; simp_all [State.readSpsr, SpsrCells.get]
  cases t; cases s; simp_all

end Sys2Proof.Machine
end

