-- ==== Sys2Proof/Laws/Registers.lean ====
section
/-! SUPPORT. The banked register file: which indices share a cell, reading after writing, the program counter. -/

namespace Sys2Proof.Machine

@[simp] theorem phys_pc (m : Mode) : phys m 15 = .s 7 := by cases m <;> rfl

/-- Under one mode, different indices are different cells. -/
theorem phys_injective (m : Mode) {i j : Reg} (h : phys m i = phys m j) : i = j := by
  revert i j; cases m <;> decide

@[simp] theorem phys_eq_iff (m : Mode) (i j : Reg) : phys m i = phys m j ↔ i = j :=
  ⟨phys_injective m, fun h => h ▸ rfl⟩

theorem phys_eq_pc_iff (m : Mode) (i : Reg) : phys m i = .s 7 ↔ i = 15 := by
  rw [← phys_pc m, phys_eq_iff]

/-- r0 to r7 and r15 are the same cells in every mode. -/
theorem phys_shared {m n : Mode} {i : Reg} (h : i.val < 8 ∨ i = 15) : phys m i = phys n i := by
  rcases h with h | rfl
  · simp [phys, h]
  · simp

theorem pc_eq_cell (s : State) : s.pc = s.readCell (.s 7) := by simp [State.pc, State.get]

@[simp] theorem set_get_same (s : State) (i : Reg) (v : Word) : (s.set i v).get i = v := by
  simp [State.get, set_readCell]

theorem set_get (s : State) (i j : Reg) (v : Word) : (s.set i v).get j = if j = i then v else s.get j := by
  simp [State.get, set_readCell]

@[simp] theorem setPc_pc (s : State) (v : Word) : (s.setPc v).pc = v := by simp [State.pc, State.setPc]

theorem setPc_readCell (s : State) (v : Word) (c : PhysCell) :
    (s.setPc v).readCell c = if c = .s 7 then v else s.readCell c := by simp [State.setPc, set_readCell]

theorem setPc_get (s : State) (v : Word) (i : Reg) : (s.setPc v).get i = if i = 15 then v else s.get i := by
  simp [State.setPc, set_get]

@[simp] theorem setPc_setPc (s : State) (v w : Word) : (s.setPc v).setPc w = s.setPc w := by
  apply state_eq <;> simp [setPc_readCell]
  intro c; split <;> rfl

theorem set_pc (s : State) (i : Reg) (v : Word) : (s.set i v).pc = if i = 15 then v else s.pc := by
  simp only [State.pc, set_get, eq_comm]

@[simp] theorem advance_pc (s : State) : s.advance.pc = s.pc + 4#32 := by simp [State.advance, Config.instrBytes]

theorem advance_readCell (s : State) (c : PhysCell) :
    s.advance.readCell c = if c = .s 7 then s.pc + 4#32 else s.readCell c := by
  simp [State.advance, setPc_readCell, Config.instrBytes]

theorem advance_get (s : State) (i : Reg) : s.advance.get i = if i = 15 then s.pc + 4#32 else s.get i := by
  simp [State.advance, setPc_get, Config.instrBytes]

@[simp] theorem withMode_get (s : State) (m : Mode) (i : Reg) : (s.withMode m).get i = s.readCell (phys m i) := by
  simp [State.get]

/-- A mode sees a saved status register exactly when it is not System. -/
theorem spsr?_eq_none (m : Mode) : m.spsr? = none ↔ m = .system := by cases m <;> simp [Mode.spsr?]

end Sys2Proof.Machine
end

