-- ==== Sys2Proof/Laws/Exec.lean ====
section
/-! SUPPORT. What each meaning does, said once: the skipped case, the case where the condition passes, the writes of a
Move, and the cases of a step. -/

namespace Sys2Proof.Machine

/-- A skipped instruction, whichever it is (40_step_and_condition.md R106). -/
theorem exec_skipped {i : Instr} {s : State} (h : conditionPassed i.cond s.cpsr = false) : exec i s = .next s.advance := by
  cases i <;> simp_all [exec, execB, execBl, execMovImm, execMovRegImm, execMovRegReg, execMsrCpsrImm, execMsrSpsrImm,
    execMsrCpsrReg, execMsrSpsrReg, conditionally, Instr.cond]

/-- What an instruction does once its condition passes. -/
def effect (i : Instr) (s : State) : Host.Outcome State Fault Refusal :=
  match i with
  | .b _ offset => branch offset s
  | .bl _ offset => branchLink offset s
  | .movImm _ f rd rot imm8 => move f rd (.imm rot imm8) s
  | .movRegImm _ f rd rm t a => move f rd (.regImmShift rm t a) s
  | .movRegReg _ f rd rm t rs => move f rd (.regRegShift rm t rs) s
  | .msrCpsrImm _ m rot imm8 => transferCpsr m (.imm rot imm8) s
  | .msrSpsrImm _ m rot imm8 => transferSpsr m (.imm rot imm8) s
  | .msrCpsrReg _ m rm => transferCpsr m (.reg rm) s
  | .msrSpsrReg _ m rm => transferSpsr m (.reg rm) s

theorem exec_passed {i : Instr} {s : State} (h : conditionPassed i.cond s.cpsr = true) : exec i s = effect i s := by
  cases i <;> simp_all [exec, execB, execBl, execMovImm, execMovRegImm, execMovRegReg, execMsrCpsrImm, execMsrSpsrImm,
    execMsrCpsrReg, execMsrSpsrReg, conditionally, Instr.cond, effect]

/-- An instruction that answers a next state was skipped, or its effect gave that state. -/
theorem exec_next_cases {i : Instr} {s t : State} (h : exec i s = .next t) :
    (conditionPassed i.cond s.cpsr = false ∧ t = s.advance) ∨
    (conditionPassed i.cond s.cpsr = true ∧ effect i s = .next t) := by
  cases hc : conditionPassed i.cond s.cpsr with
  | false => rw [exec_skipped hc] at h; cases h; exact .inl ⟨rfl, rfl⟩
  | true => rw [exec_passed hc] at h; exact .inr ⟨rfl, h⟩

theorem move_next {f : Bool} {rd : Reg} {op : ShifterOperand} {s t : State} :
    move f rd op s = .next t ↔ ¬(f = true ∧ rd = 15) ∧ t = moveResult f rd (shifterOperand op s) s := by
  unfold move
  split <;> simp_all [eq_comm]

theorem move_fault {f : Bool} {rd : Reg} {op : ShifterOperand} {s : State} {r : Fault} :
    move f rd op s = .fault r ↔ (f = true ∧ rd = 15) ∧ r = .notImplemented s.pc := by
  unfold move
  split <;> simp_all [eq_comm]

theorem transferSpsr_next {m : BitVec 4} {src : PsrSource} {s t : State} :
    transferSpsr m src s = .next t ↔ ∃ k, s.mode.spsr? = some k ∧
      t = (s.writeSpsr k (maskedWrite m (s.readSpsr k) (psrOperand src s))).advance := by
  unfold transferSpsr
  cases s.mode.spsr? <;> simp [eq_comm]

theorem transferSpsr_fault {m : BitVec 4} {src : PsrSource} {s : State} {r : Fault} :
    transferSpsr m src s = .fault r ↔ s.mode = .system ∧ r = .modeContextViolation := by
  rw [← spsr?_eq_none]
  unfold transferSpsr
  cases s.mode.spsr? <;> simp [eq_comm]

section MoveResult

variable (f : Bool) (rd : Reg) (vc : Word × Bool) (s : State)

@[simp] theorem moveResult_mode : (moveResult f rd vc s).mode = s.mode := by
  simp only [moveResult]; repeat' split
  all_goals simp
@[simp] theorem moveResult_mem : (moveResult f rd vc s).mem = s.mem := by
  simp only [moveResult]; repeat' split
  all_goals simp
@[simp] theorem moveResult_readSpsr (k : SpsrMode) : (moveResult f rd vc s).readSpsr k = s.readSpsr k := by
  simp only [moveResult]; repeat' split
  all_goals simp
theorem moveResult_cpsr : (moveResult f rd vc s).cpsr = if f then moveFlags vc.1 vc.2 s.cpsr else s.cpsr := by
  simp only [moveResult]; repeat' split
  all_goals simp
theorem moveResult_readCell (c : PhysCell) : (moveResult f rd vc s).readCell c =
    if c = phys s.mode rd then vc.1 else if c = .s 7 then s.pc + 4#32 else s.readCell c := by
  simp only [moveResult]
  by_cases hrd : rd = 15
  · subst hrd; cases f <;> by_cases hc : c = .s 7 <;> simp [set_readCell, hc]
  · have hp : phys s.mode rd ≠ .s 7 := fun h => hrd ((phys_eq_pc_iff _ _).mp h)
    cases f <;> simp only [hrd, if_true, if_false, Bool.false_eq_true, setPc_readCell, withCpsr_readCell, set_readCell,
      Config.instrBytes] <;>
      by_cases hc : c = .s 7 <;> simp [hc, Ne.symm hp]
theorem moveResult_get_rd : (moveResult f rd vc s).get rd = vc.1 := by
  simp [State.get, moveResult_readCell]
theorem moveResult_pc : (moveResult f rd vc s).pc = if rd = 15 then vc.1 else s.pc + 4#32 := by
  rw [pc_eq_cell, moveResult_readCell]
  by_cases h : rd = 15
  · subst h; simp
  · simp [h, eq_comm (a := PhysCell.s 7), phys_eq_pc_iff]

end MoveResult

/-- A fetch gives a word or the addressing fault of the pc. -/
theorem fetch_cases (s : State) : (∃ w, s.fetch = .next w) ∨ s.fetch = .fault (.addressingFault s.pc 4) :=
  readU32_cases s.mem s.pc

theorem step_of_fetch {s : State} {w : Word} (h : s.fetch = .next w) :
    step s = match decode w with
      | none => .fault (.decodeMiss s.pc w)
      | some i => exec i s := by
  simp only [step, h, decodeMissReport] <;> rfl

theorem step_of_fault {s : State} {r : Fault} (h : s.fetch = .fault r) : step s = .fault r := by simp [step, h]

/-- A step that answers a next state ran the instruction at the pc. -/
theorem step_next_cases {s t : State} (h : step s = .next t) :
    ∃ w i, s.fetch = .next w ∧ decode w = some i ∧ exec i s = .next t := by
  rcases fetch_cases s with ⟨w, hw⟩ | hf
  · rw [step_of_fetch hw] at h
    cases hd : decode w with
    | none => simp [hd] at h
    | some i => exact ⟨w, i, hw, hd, by simpa [hd] using h⟩
  · rw [step_of_fault hf] at h; cases h

end Sys2Proof.Machine
end

