-- ==== Sys2Proof/Laws/PerInstr.lean ====
section
/-! SUPPORT. What holds of the word of every instruction, constructor by constructor: it has the fixed bits of its row of
spec/opcode_table.json, and its condition field is the instruction's condition. -/

namespace Sys2Proof

/-- The word of an instruction has the fixed bits of the instruction's row of the opcode table. -/
def Laws.EncodeRow.Statement (i : Instr) : Prop := encode i &&& i.rowMask = i.rowMatch

/-- The condition field of an instruction's word is the code of its condition (30_encoding.md R81). -/
def Laws.EncodeCond.Statement (i : Instr) : Prop := (encode i).extractLsb' 28 4 = condBits i.cond

namespace Laws.EncodeRow

theorem b (c : Cond) (o : Word) : Statement (.b c o) := by
  simp [Statement, Instr.rowMask, Instr.rowMatch, word_eq_iff, Fin.forall_fin_succ, encode, placed]
theorem bl (c : Cond) (o : Word) : Statement (.bl c o) := by
  simp [Statement, Instr.rowMask, Instr.rowMatch, word_eq_iff, Fin.forall_fin_succ, encode, placed]
theorem movImm (c : Cond) (f : Bool) (rd : Reg) (rot : BitVec 4) (imm8 : BitVec 8) : Statement (.movImm c f rd rot imm8) := by
  simp [Statement, Instr.rowMask, Instr.rowMatch, word_eq_iff, Fin.forall_fin_succ, encode, placed]
theorem movRegImm (c : Cond) (f : Bool) (rd rm : Reg) (t : ShiftType) (a : BitVec 5) :
    Statement (.movRegImm c f rd rm t a) := by
  simp [Statement, Instr.rowMask, Instr.rowMatch, word_eq_iff, Fin.forall_fin_succ, encode, placed]
theorem movRegReg (c : Cond) (f : Bool) (rd rm : Reg) (t : ShiftType) (rs : Reg) :
    Statement (.movRegReg c f rd rm t rs) := by
  simp [Statement, Instr.rowMask, Instr.rowMatch, word_eq_iff, Fin.forall_fin_succ, encode, placed]
theorem msrCpsrImm (c : Cond) (f rot : BitVec 4) (imm8 : BitVec 8) : Statement (.msrCpsrImm c f rot imm8) := by
  simp [Statement, Instr.rowMask, Instr.rowMatch, word_eq_iff, Fin.forall_fin_succ, encode, placed]
theorem msrSpsrImm (c : Cond) (f rot : BitVec 4) (imm8 : BitVec 8) : Statement (.msrSpsrImm c f rot imm8) := by
  simp [Statement, Instr.rowMask, Instr.rowMatch, word_eq_iff, Fin.forall_fin_succ, encode, placed]
theorem msrCpsrReg (c : Cond) (f : BitVec 4) (rm : Reg) : Statement (.msrCpsrReg c f rm) := by
  simp [Statement, Instr.rowMask, Instr.rowMatch, word_eq_iff, Fin.forall_fin_succ, encode, placed]
theorem msrSpsrReg (c : Cond) (f : BitVec 4) (rm : Reg) : Statement (.msrSpsrReg c f rm) := by
  simp [Statement, Instr.rowMask, Instr.rowMatch, word_eq_iff, Fin.forall_fin_succ, encode, placed]

end Laws.EncodeRow

namespace Laws.EncodeCond

theorem b (c : Cond) (o : Word) : Statement (.b c o) := by
  simp [Statement, field_eq_iff, Fin.forall_fin_succ, encode, placed, Instr.cond]
theorem bl (c : Cond) (o : Word) : Statement (.bl c o) := by
  simp [Statement, field_eq_iff, Fin.forall_fin_succ, encode, placed, Instr.cond]
theorem movImm (c : Cond) (f : Bool) (rd : Reg) (rot : BitVec 4) (imm8 : BitVec 8) : Statement (.movImm c f rd rot imm8) := by
  simp [Statement, field_eq_iff, Fin.forall_fin_succ, encode, placed, Instr.cond]
theorem movRegImm (c : Cond) (f : Bool) (rd rm : Reg) (t : ShiftType) (a : BitVec 5) :
    Statement (.movRegImm c f rd rm t a) := by
  simp [Statement, field_eq_iff, Fin.forall_fin_succ, encode, placed, Instr.cond]
theorem movRegReg (c : Cond) (f : Bool) (rd rm : Reg) (t : ShiftType) (rs : Reg) :
    Statement (.movRegReg c f rd rm t rs) := by
  simp [Statement, field_eq_iff, Fin.forall_fin_succ, encode, placed, Instr.cond]
theorem msrCpsrImm (c : Cond) (f rot : BitVec 4) (imm8 : BitVec 8) : Statement (.msrCpsrImm c f rot imm8) := by
  simp [Statement, field_eq_iff, Fin.forall_fin_succ, encode, placed, Instr.cond]
theorem msrSpsrImm (c : Cond) (f rot : BitVec 4) (imm8 : BitVec 8) : Statement (.msrSpsrImm c f rot imm8) := by
  simp [Statement, field_eq_iff, Fin.forall_fin_succ, encode, placed, Instr.cond]
theorem msrCpsrReg (c : Cond) (f : BitVec 4) (rm : Reg) : Statement (.msrCpsrReg c f rm) := by
  simp [Statement, field_eq_iff, Fin.forall_fin_succ, encode, placed, Instr.cond]
theorem msrSpsrReg (c : Cond) (f : BitVec 4) (rm : Reg) : Statement (.msrSpsrReg c f rm) := by
  simp [Statement, field_eq_iff, Fin.forall_fin_succ, encode, placed, Instr.cond]

end Laws.EncodeCond

end Sys2Proof
end

