-- ==== Sys2Proof/Tests/Slice0.lean ====
section
/-! SUPPORT. Tests of the model. The expected values are those of 95_test_vectors.md (the names T-..., SV... are its ids),
or are computed by hand from the rule a comment names. -/

namespace Sys2Proof.Tests

open Sys2Proof.Machine

/-! ## Helpers -/

/-- The value an operation answers with, if it answers. -/
def answered {α : Type} : Host.Outcome α Fault Refusal → Option α
  | .next a => some a
  | .fault _ => none
  | .refused _ => none

/-- The report an operation ends with. -/
def reported {α : Type} : Host.Outcome α Fault Refusal → Option Fault
  | .next _ => none
  | .fault r => some r
  | .refused _ => none

theorem answers {α : Type} {o : Host.Outcome α Fault Refusal} {a : α} (h : answered o = some a) : o = .next a := by
  cases o <;> simp_all [answered]

theorem reports {α : Type} {o : Host.Outcome α Fault Refusal} {r : Fault} (h : reported o = some r) : o = .fault r := by
  cases o <;> simp_all [reported]

/-- The refusal an operation ends with. -/
def refusal {α : Type} : Host.Outcome α Fault Refusal → Option Refusal
  | .next _ => none
  | .fault _ => none
  | .refused r => some r

/-- The decoder's verdict on bytes. -/
def instrOf : Except DecodeReject Instr → Option Instr
  | .ok i => some i
  | .error _ => none

/-- The decoder's reason against bytes. -/
def rejectOf : Except DecodeReject Instr → Option DecodeReject
  | .ok _ => none
  | .error r => some r

/-- The reset state with a word at a mapped pc, the mode and CPSR as given. -/
def start (w pc : Word) (m : ModeName) (cpsr : Word) : State :=
  (((State.reset.setPc pc).placeWord w).setMode m).withCpsr cpsr

/-- What a test looks at after one step: the pc, one register, CPSR. -/
def after (s : State) (i : Reg) : Option (Word × Word × Word) :=
  (answered (step s)).map fun t => (t.pc, t.get i, t.cpsr)

/-- A small memory with a cartridge of eight bytes (T-X15). -/
def cartridge : Memory := ⟨some 8, cellsOf romBase [0x10, 0x20, 0x30, 0x40, 0x50, 0x60, 0x70, 0x80]⟩

/-! ## WellFormed -/

/-- 30_encoding.md R87, R122's remark on SV6: no word decodes to the offset -0x32. -/
theorem test_illformed_misaligned_offset : (Instr.b .al (BitVec.ofInt 32 (-0x32))).wellFormed = false := by decide
/-- 30_encoding.md R87: the greatest offset is 0x02000004. -/
theorem test_illformed_offset_too_great : (Instr.bl .al 0x02000008#32).wellFormed = false := by decide
/-- 30_encoding.md R87: the least offset is -0x01FFFFF8. -/
theorem test_illformed_offset_too_small : (Instr.b .al (BitVec.ofInt 32 (-0x01FFFFFC))).wellFormed = false := by decide
theorem test_wellformed_extreme_offsets :
    (Instr.b .al 0x02000004#32).wellFormed = true ∧ (Instr.bl .al (BitVec.ofInt 32 (-0x01FFFFF8))).wellFormed = true := by
  decide

/-! ## Decode: words written out from the formats of 30_encoding.md R84 to R89 -/

/-- Bits: cond 1110, 101, L 0, imm24 0x000032 (SV2: offset 0xD0). -/
theorem test_decode_b : decode 0b1110_101_0_000000000000000000110010#32 = some (.b .al 0xD0#32) := by decide
/-- Bits: cond 1110, 101, L 1, imm24 0x000032 (SV4). -/
theorem test_decode_bl : decode 0b1110_101_1_000000000000000000110010#32 = some (.bl .al 0xD0#32) := by decide
/-- The most negative and the most positive offset. -/
theorem test_decode_branch_extremes :
    decode 0xEA800000#32 = some (.b .al (BitVec.ofInt 32 (-0x01FFFFF8))) ∧
    decode 0xEA7FFFFF#32 = some (.b .al 0x02000004#32) := by decide
/-- Bits: cond 1110, 00, I 1, 1101, S 1, Rn 0000, Rd 0000, rot 0010, imm8 0x0F. -/
theorem test_decode_movImm :
    decode 0b1110_00_1_1101_1_0000_0000_0010_00001111#32 = some (.movImm .al true 0 2#4 0x0F#8) := by decide
/-- Bits: cond 1110, 00, I 0, 1101, S 0, Rn 0000, Rd 0001, shift_imm 00100, type 00, 0, Rm 0000. -/
theorem test_decode_movRegImm :
    decode 0b1110_00_0_1101_0_0000_0001_00100_00_0_0000#32 = some (.movRegImm .al false 1 0 .lsl 4#5) := by decide
/-- Bits: cond 1110, 00, I 0, 1101, S 1, Rn 0000, Rd 0010, Rs 0011, 0, type 10, 1, Rm 0001. -/
theorem test_decode_movRegReg :
    decode 0b1110_00_0_1101_1_0000_0010_0011_0_10_1_0001#32 = some (.movRegReg .al true 2 1 .asr 3) := by decide
/-- Bits: cond 1110, 00, I 1, 10, R 0, 10, mask 1000, 1111, rot 0010, imm8 0x0F. -/
theorem test_decode_msrCpsrImm :
    decode 0b1110_00_1_10_0_10_1000_1111_0010_00001111#32 = some (.msrCpsrImm .al 0b1000#4 2#4 0x0F#8) := by decide
/-- Bits: cond 1110, 00, I 1, 10, R 1, 10, mask 1001, 1111, rot 0000, imm8 0x1F. -/
theorem test_decode_msrSpsrImm :
    decode 0b1110_00_1_10_1_10_1001_1111_0000_00011111#32 = some (.msrSpsrImm .al 0b1001#4 0#4 0x1F#8) := by decide
/-- Bits: cond 1110, 00, I 0, 10, R 0, 10, mask 1001, 1111, 1000 (ignored), 0000, Rm 0000 (SV8). -/
theorem test_decode_msrCpsrReg :
    decode 0b1110_00_0_10_0_10_1001_1111_1000_0000_0000#32 = some (.msrCpsrReg .al 0b1001#4 0) := by decide
/-- Bits: cond 1110, 00, I 0, 10, R 1, 10, mask 1111, 1111, 0000, 0000, Rm 0011. -/
theorem test_decode_msrSpsrReg :
    decode 0b1110_00_0_10_1_10_1111_1111_0000_0000_0011#32 = some (.msrSpsrReg .al 0b1111#4 3) := by decide
/-- 30_encoding.md R92: bits 19:16 of a Move are ignored. -/
theorem test_decode_ignored_bits : decode 0xE3AF0012#32 = decode 0xE3A00012#32 := by decide
/-- 30_encoding.md R93: condition 1111 is decoded as any other. -/
theorem test_decode_nv : decode 0xFA000000#32 = some (.b .nv 8#32) := by decide
/-- Bytes at ascending addresses (SV7, R80). -/
theorem test_decode_bytes : instrOf (decodeBytes [0x12, 0x00, 0xA0, 0xE3]) = some (.movImm .al false 0 0#4 0x12#8) := by
  decide
/-- Section 2.1, unrecognised words: AND, ADD, MVN, multiply space, MRS, MSR without its 1111, TEQ, BX, LDR, SWI. -/
theorem test_unrecognised_words :
    [0x00000000#32, 0xE0800001#32, 0xE1E00000#32, 0xE1A00090#32, 0xE10F0000#32, 0xE1290000#32, 0xE330F000#32, 0xE12FFF1E#32,
      0xE5900000#32, 0xEF000000#32, 0xFFFFFFFF#32].map decode = List.replicate 11 none := by decide
theorem test_rejects_by_name :
    rejectOf (decodeBytes [0x00, 0x00, 0x80, 0xE0]) = some (.unrecognised 0xE0800000#32) ∧
    rejectOf (decodeBytes [0x32, 0x00]) = some (.notFourBytes 2) := by decide
theorem test_decodeTableWord :
    decodeTableWord 32 0xE3A00012 = some (.movImm .al false 0 0#4 0x12#8) ∧ decodeTableWord 32 0xE0800001 = none := by decide
theorem test_encode_words :
    [Instr.b .al 0xD0#32, .movImm .al true 0 2#4 0x0F#8, .msrSpsrReg .al 0b1111#4 3].map encode
      = [0xEA000032#32, 0xE3B0020F#32, 0xE16FF003#32] := by decide

/-! ## Conditions and the step -/

/-- T-C2: BLEQ with Z set. -/
theorem test_condition_passes :
    after (start 0x0B000032#32 0x03005000#32 .system 0x40000000#32) 14
      = some (0x030050D0#32, 0x03005000#32, 0x40000000#32) := by decide
/-- T-C5: MOVEQS pc with Z clear is skipped, not reported. -/
theorem test_skipped_before_report :
    (stepOutcome (start 0x03B0F000#32 0x03000000#32 .system 0#32)).1 = .skipped ∧
    (stepOutcome (start 0x03B0F000#32 0x03000000#32 .system 0#32)).2.pc = 0x03000004#32 := by decide
/-- T-C7: an unrecognised word is a decode miss whatever its condition, and the pc has advanced. -/
theorem test_decode_before_condition :
    (stepOutcome (start 0x10000000#32 0x03000000#32 .system 0x40000000#32)).1 = .decodeMiss 0x03000000#32 0x10000000#32 ∧
    (stepOutcome (start 0x10000000#32 0x03000000#32 .system 0x40000000#32)).2.pc = 0x03000004#32 := by decide
/-- T-Z3: the end of the boot ROM. -/
theorem test_fetch_fault :
    reported (step (State.reset.setPc 0x00004000#32)) = some (.addressingFault 0x00004000#32 4) := by decide
/-- T-Z2: the first step from reset. -/
theorem test_first_step_from_reset :
    stepOutcome State.reset = (.decodeMiss 0#32 0#32, State.reset.setPc 4#32) := by decide

/-! ## Branches -/

/-- T-B1. -/
theorem test_b :
    after (start 0xEA000032#32 0x03005000#32 .system 0#32) 14 = some (0x030050D0#32, 0#32, 0#32) := by decide
/-- T-B7: the target wraps below address 0. -/
theorem test_b_wraps :
    after (start 0xEA800000#32 0x00000000#32 .system 0#32) 14 = some (0xFE000008#32, 0#32, 0#32) := by decide
/-- T-B2: the link is the address of the BL itself. -/
theorem test_bl :
    after (start 0xEB000032#32 0x03005000#32 .system 0#32) 14 = some (0x030050D0#32, 0x03005000#32, 0#32) := by decide
/-- T-B10: in FIQ the link goes to F14; System's r14 stays 0. -/
theorem test_bl_fiq :
    (answered (step (start 0xEB000032#32 0x03005000#32 .fiq 0#32))).map (fun t => (t.get 14, (t.setMode .system).get 14))
      = some (0x03005000#32, 0#32) := by decide

/-! ## Moves -/

/-- T-M4: MOVS r3, #0: N cleared, Z set, C and V kept. -/
theorem test_movImm_zero :
    after (start 0xE3B03000#32 0x03000000#32 .system 0xB0000000#32) 3 = some (0x03000004#32, 0#32, 0x70000000#32) := by
  decide
/-- T-M6: MOVS r0, #0xF0000000: C from bit 31 of the rotated value. -/
theorem test_movImm_rotated :
    after (start 0xE3B0020F#32 0x03000000#32 .system 0x10000000#32) 0
      = some (0x03000004#32, 0xF0000000#32, 0xB0000000#32) := by decide
/-- T-M12: MOVS pc, #0 is not implemented, and nothing changes. -/
theorem test_movs_pc :
    stepOutcome (start 0xE3B0F000#32 0x03000000#32 .system 0#32)
      = (.notImplemented 0x03000000#32 0xE3B0F000#32, start 0xE3B0F000#32 0x03000000#32 .system 0#32) := by decide
/-- T-S14: RRX with C set. -/
theorem test_movRegImm_rrx :
    after ((start 0xE1B00061#32 0x03000000#32 .system 0x20000000#32).set 1 2#32) 0
      = some (0x03000004#32, 0x80000001#32, 0x80000000#32) := by decide
/-- T-S19: MOV pc, lr. -/
theorem test_movRegImm_pc :
    after ((start 0xE1A0F00E#32 0x03000000#32 .system 0#32).set 14 0x03000040#32) 15
      = some (0x03000040#32, 0x03000040#32, 0#32) := by decide
/-- T-G1: MOVS r2, r1, ASR r3 with the amount 32 in the low byte of r3. -/
theorem test_movRegReg_asr :
    after (((start 0xE1B02351#32 0x03000000#32 .system 0#32).set 1 0x80000000#32).set 3 0x00000120#32) 2
      = some (0x03000004#32, 0xFFFFFFFF#32, 0xA0000000#32) := by decide
/-- T-G3: MOV r0, r1, LSL pc: the amount is the low byte of the instruction's own address. -/
theorem test_movRegReg_pc_amount :
    after ((start 0xE1A00F11#32 0x03000004#32 .system 0#32).set 1 1#32) 0 = some (0x03000008#32, 0x10#32, 0#32) := by decide
/-- Section 2.6, the rows 31, 32, 33 and 255 for LSL and ROR of 0x80000001 with C set: value and carry-out. -/
theorem test_shiftReg_table :
    [31#8, 32#8, 33#8, 255#8].map (fun a => shiftReg 0x80000001#32 .lsl a true)
      = [(0x80000000#32, false), (0#32, true), (0#32, false), (0#32, false)] ∧
    [31#8, 32#8, 33#8, 255#8].map (fun a => shiftReg 0x80000001#32 .ror a true)
      = [(3#32, false), (0x80000001#32, true), (0xC0000000#32, true), (3#32, false)] := by decide
/-- T-S4, T-S7, T-S12: LSR #32, ASR #32, ROR #31 of 0x80000001. -/
theorem test_shiftImm_table :
    [(ShiftType.lsr, 0#5), (.asr, 0#5), (.ror, 31#5)].map (fun p => shiftImm 0x80000001#32 p.1 p.2 false)
      = [(0#32, true), (0xFFFFFFFF#32, true), (3#32, false)] := by decide

/-! ## Status-register transfers -/

/-- T-P1. -/
theorem test_msrCpsrImm :
    after (start 0xE328F20F#32 0x03000000#32 .system 0x000000D3#32) 15
      = some (0x03000004#32, 0x03000004#32, 0xF00000D3#32) := by decide
/-- T-P5: the mode does not follow the mode bits. -/
theorem test_msrCpsrImm_mode :
    (answered (step (start 0xE321F01F#32 0x03000000#32 .supervisor 0xF0000013#32))).map (fun t => (t.cpsr, t.mode))
      = some (0xF000001F#32, .supervisor) := by decide
/-- T-P11. -/
theorem test_msrSpsrImm :
    (answered (step (start 0xE369F01F#32 0x03000000#32 .supervisor 0#32))).map
      (fun t => (t.readSpsr .supervisor, t.readSpsr .irq, t.cpsr, t.pc)) = some (0x1F#32, 0#32, 0#32, 0x03000004#32) := by
  decide
/-- T-P12: in System mode it reports and nothing changes. -/
theorem test_msrSpsrImm_system :
    stepOutcome (start 0xE369F01F#32 0x03000000#32 .system 0#32)
      = (.modeContextViolation, start 0xE369F01F#32 0x03000000#32 .system 0#32) := by decide
/-- T-P2, the source's word. -/
theorem test_msrCpsrReg :
    after ((start 0xE129F800#32 0x03000000#32 .system 0x0AAAAA00#32).set 0 0xF00000FF#32) 0
      = some (0x03000004#32, 0xF00000FF#32, 0xF0AAAAFF#32) := by decide
/-- T-P8 and T-P9: the x byte and the s byte alone. -/
theorem test_msr_single_bytes :
    maskedWrite 0b0010#4 0x12345678#32 0xAABBCCDD#32 = 0x1234CC78#32 ∧
    maskedWrite 0b0100#4 0x12345678#32 0xAABBCCDD#32 = 0x12BB5678#32 := by decide
/-- T-P14. -/
theorem test_msrSpsrReg :
    (answered (step (((start 0xE16FF003#32 0x03000000#32 .irq 0#32).writeSpsr .irq 0xFFFFFFFF#32).set 3 0x600000D2#32))).map
      (fun t => (t.readSpsr .irq, t.readSpsr .fiq)) = some (0x600000D2#32, 0#32) := by decide
/-- T-P16: r9 is read through the FIQ bank. -/
theorem test_msrSpsrReg_banked :
    (answered (step ((start 0xE169F009#32 0x03000000#32 .fiq 0#32).set 9 0xA00000BB#32))).map (fun t => t.readSpsr .fiq)
      = some 0xA00000BB#32 := by decide

/-! ## Registers -/

/-- The state of the first line of T-R1. -/
def bankedStart : State :=
  (((((State.reset.setMode .supervisor).set 9 0x11111111#32).set 13 0x22222222#32).set 14 0x33333333#32).set 15
    0x44444444#32).set 0 0x55555555#32

/-- T-R1, System's and FIQ's view. -/
theorem test_banking :
    [0, 9, 13, 14, 15].map ((bankedStart.setMode .system).get ·)
      = [0x55555555#32, 0x11111111#32, 0#32, 0#32, 0x44444444#32] ∧
    [0, 9, 13, 14, 15].map ((bankedStart.setMode .fiq).get ·) = [0x55555555#32, 0#32, 0#32, 0#32, 0x44444444#32] := by
  decide
/-- T-R2. -/
theorem test_spsr_access :
    reported State.reset.getSpsr = some .modeContextViolation ∧
    (answered ((State.reset.setMode .abort).setSpsr 0xDEADBEEF#32)).map
      (fun t => (answered t.getSpsr, answered (t.setMode .irq).getSpsr)) = some (some 0xDEADBEEF#32, some 0#32) := by decide

/-! ## The bus -/

/-- T-X1, T-X2: little-endian. -/
theorem test_write_then_read :
    (answered (Memory.initial.write 0x0E000000#32 [0x32, 0x00, 0x00, 0xEA])).map
      (fun m => (answered (m.readU32 0x0E000000#32), answered (m.read 0x0E000003#32 1)))
      = some (some 0xEA000032#32, some [0xEA#8]) := by decide
/-- T-X4: the inclusive end of the boot ROM. -/
theorem test_inclusive_end :
    answered (Memory.initial.read 0x3FFC#32 4) = some [0#8, 0#8, 0#8, 0#8] ∧
    reported (Memory.initial.read 0x3FFD#32 4) = some (.addressingFault 0x3FFD#32 4) := by decide
/-- T-X14: a refused write stores no prefix. -/
theorem test_no_partial_write :
    performOp (.write 0x03007FFE#32 [1, 2, 3, 4]) State.reset = (.report (.addressingFault 0x03007FFE#32 4), State.reset) := by
  decide
/-- T-X12: no wrap to address 0. -/
theorem test_no_wrap :
    reported (Memory.initial.read 0xFFFFFFFE#32 4) = some (.addressingFault 0xFFFFFFFE#32 4) := by decide
/-- T-X15, T-X16, T-X17. -/
theorem test_cartridge_windows :
    answered (cartridge.read 0x0A000004#32 4) = some [0x50#8, 0x60#8, 0x70#8, 0x80#8] ∧
    answered (cartridge.readU32 0x0A000002#32) = some 0x60504030#32 ∧
    reported (cartridge.read 0x0C000008#32 1) = some (.addressingFault 0x0C000008#32 1) := by decide
/-- T-X18: a write through one window is seen through the others. -/
theorem test_one_buffer :
    (answered (cartridge.write 0x0A000001#32 [0xAA])).map
      (fun m => (answered (m.read 0x08000000#32 4), answered (m.read 0x0C000000#32 4)))
      = some (some [0x10#8, 0xAA#8, 0x30#8, 0x40#8], some [0x10#8, 0xAA#8, 0x30#8, 0x40#8]) := by decide
/-- T-X19: a second load discards the first buffer. -/
theorem test_second_load :
    (answered (cartridge.loadCartridge [1, 2, 3, 4])).map
      (fun m => (answered (m.read 0x08000000#32 4), answered (m.read 0x08000004#32 1))) = some (some [1#8, 2#8, 3#8, 4#8], none) := by
  decide
/-- 20_memory.md R71. -/
theorem test_zero_length : refusal (Memory.initial.read 0x03000000#32 0) = some .zeroLengthAccess := by decide
/-- The canonical form: a zero written over a byte removes its entry. -/
theorem test_canonical : setByte 5 0 (setByte 5 7 (setByte 9 1 [])) = [(9, 1)] := by decide

/-! ## Reset and load -/

/-- T-Z5: load, then one step. -/
theorem test_load_and_step :
    ((answered (State.reset.load [0x12, 0x00, 0xA0, 0xE3])).bind (fun s => answered (step s))).map
      (fun t => (t.get 0, t.pc)) = some (0x12#32, 0x08000004#32) := by decide
/-- T-Z6: load resets nothing. -/
theorem test_load_keeps_registers :
    (answered (((State.reset.setMode .irq).set 5 0x77#32).load [1])).map (fun t => (t.get 5, t.mode, t.pc))
      = some (0x77#32, .irq, 0x08000000#32) := by decide
/-- `withFetchWord` from reset: the placed word runs as the next step. -/
theorem test_withFetchWord :
    (answered (step (State.reset.withFetchWord 32 0xE3A00012))).map (fun t => (t.get 0, t.pc)) = some (0x12#32, 4#32) := by
  decide

/-! ## Witnesses: for each statement with hypotheses, inputs that meet them, clause by clause -/

/-- The reset state after `load` of a three-byte image. -/
def loadedSmall : State := (State.reset.withMem ⟨some 3, cellsOf romBase [1, 2, 3]⟩).setPc 0x08000000#32

theorem imageOfLength (n : Nat) : ∃ image : List Byte, image.length = n := ⟨List.replicate n 0, List.length_replicate⟩

theorem witness_ResetLeavesEveryElementAtItsTableValue :
    State.reset.mem.read 0x00003FFC#32 4 = .next [0, 0, 0, 0] ∧ State.reset.mem.read 0x0E00FFFF#32 1 = .next [0] ∧
    ([] : List Byte).length ≤ 0x02000000 ∧ ∃ image : List Byte, image.length = 0x02000000 :=
  ⟨rfl, rfl, by decide, imageOfLength _⟩
theorem witness_LoadInstallsTheImageAndSetsOnlyThePc :
    State.reset.mem.wf ∧ [1#8, 2#8, 3#8].length ≤ 0x02000000 ∧ 0 < [1#8, 2#8, 3#8].length ∧ 2 < [1#8, 2#8, 3#8].length ∧
    (0x07FFFFFF#32).toNat < 0x08000000 ∧ 0x0E000000 ≤ (0x0E000000#32).toNat ∧ PhysCell.s 6 ≠ .s 7 := by decide
theorem witness_EveryIndexResolvesToItsTableCell : Mode.system ≠ .fiq ∧ Mode.undefined ≠ .fiq := by decide
theorem witness_EveryModeSharesTheOneProgramCounter : PhysCell.s 6 ≠ .s 7 ∧ PhysCell.f 6 ≠ .s 7 := by decide
theorem witness_ModeChangesOnlyBySetModeOrReset :
    (performOp (.setMode .irq) State.reset).2.mode ≠ State.reset.mode ∧
    (performOp .resetRegisters (State.reset.setMode .irq)).2.mode ≠ (State.reset.setMode .irq).mode ∧
    (performOp .systemReset (State.reset.setMode .irq)).2.mode ≠ (State.reset.setMode .irq).mode ∧
    (performOp .construction (State.reset.setMode .irq)).2.mode ≠ (State.reset.setMode .irq).mode := by decide
theorem witness_SpsrAccessFailsExactlyInSystemMode :
    State.reset.mode = .system ∧ (State.reset.setMode .user).mode = .system ∧
    (State.reset.setMode .fiq).mode.spsr? = some .fiq ∧ (State.reset.setMode .undefined).mode.spsr? = some .undefined ∧
    (State.reset.setMode .fiq).mode ≠ .system ∧ SpsrMode.irq ≠ .fiq := by decide
theorem witness_DecodeOfEncodeIsTheInstruction :
    (Instr.b .nv 0x02000004#32).wellFormed = true ∧ (Instr.bl .eq (BitVec.ofInt 32 (-0x01FFFFF8))).wellFormed = true ∧
    (Instr.movRegReg .al true 15 15 .ror 15).wellFormed = true ∧ (Instr.msrSpsrImm .al 0#4 15#4 255#8).wellFormed = true := by
  decide
theorem witness_DecodeDropsOnlyTheIgnoredBits :
    decode 0xE3AF0012#32 = some (.movImm .al false 0 0#4 0x12#8) ∧ decode 0xE129F800#32 = some (.msrCpsrReg .al 0b1001#4 0) ∧
    decode 0xEB000032#32 = some (.bl .al 0xD0#32) := by decide
theorem witness_ClassTableEntriesAreDisjoint :
    (⟨.branch, 0x0E000000#32, 0x0A000000#32⟩ : ClassEntry) ∈ classTable ∧
    (⟨.branch, 0x0E000000#32, 0x0A000000#32⟩ : ClassEntry).matchesWord 0xEA000000#32 = true := by decide
theorem witness_RecognisedWordsAreThoseOfTheOpcodeRows :
    decode 0xE16FF003#32 = some (.msrSpsrReg .al 0b1111#4 3) ∧ decode 0xE1A00000#32 = some (.movRegImm .al false 0 0 .lsl 0#5) := by
  decide
theorem witness_BranchWordsDecodeFieldByField :
    (0xEA800000#32).extractLsb' 25 3 = 0b101#3 ∧ (0xFB7FFFFF#32).extractLsb' 25 3 = 0b101#3 := by decide
/-- Each clause of the statement: the immediate form, the two register forms, and the unrecognised one. -/
theorem witness_MoveWordsDecodeFieldByField :
    [0xE3A00012#32, 0xE1A01200#32, 0xE1B02351#32, 0xE1A00090#32].map
      (fun w => (w.extractLsb' 26 2, w.extractLsb' 21 4, w.getLsbD 25, w.getLsbD 4, w.getLsbD 7))
      = [(0#2, 0b1101#4, true, true, false), (0#2, 0b1101#4, false, false, false), (0#2, 0b1101#4, false, true, false),
         (0#2, 0b1101#4, false, true, true)] := by decide
/-- Each clause of the statement: the four forms, and the unrecognised one. -/
theorem witness_TransferWordsDecodeFieldByField :
    [0xE328F20F#32, 0xE369F01F#32, 0xE129F800#32, 0xE16FF003#32, 0xE12FFF1E#32].map
      (fun w => ((w.extractLsb' 26 2, w.extractLsb' 23 2, w.extractLsb' 20 2), w.extractLsb' 12 4))
      = List.replicate 5 ((0#2, 2#2, 2#2), 0xF#4) ∧
    [0xE328F20F#32, 0xE369F01F#32, 0xE129F800#32, 0xE16FF003#32, 0xE12FFF1E#32].map
      (fun w => (w.getLsbD 25, w.getLsbD 22, w.extractLsb' 4 4))
      = [(true, false, 0x0#4), (true, true, 0x1#4), (false, false, 0x0#4), (false, true, 0x0#4), (false, false, 0x1#4)] := by
  decide
theorem witness_RecognitionIgnoresTheCondition :
    (0xEA000032#32).extractLsb' 0 28 = (0xFA000032#32).extractLsb' 0 28 ∧ decode 0xFA000032#32 = some (.b .nv 0xD0#32) := by
  decide
theorem witness_SkippedInstructionOnlyAdvancesThePc :
    conditionPassed (Instr.movImm .eq true 15 0#4 0#8).cond State.reset.cpsr = false ∧
    conditionPassed (Instr.b .nv 8#32).cond State.reset.cpsr = false := by decide
theorem witness_BranchWritesOnlyThePc :
    conditionPassed .al State.reset.cpsr = true ∧ (0xEA800000#32).extractLsb' 24 4 = 0b1010#4 := by decide
theorem witness_BranchLinkWritesItsOwnAddressAndThePc :
    conditionPassed .ne State.reset.cpsr = true ∧ (0xEB7FFFFF#32).extractLsb' 24 4 = 0b1011#4 := by decide
/-- T-B7, the target that wraps. -/
theorem witness_BranchTargetsWrapAndKeepAlignment :
    (0xEA800000#32).extractLsb' 25 3 = 0b101#3 ∧ decode 0xEA800000#32 = some (.b .al (BitVec.ofInt 32 (-0x01FFFFF8))) ∧
    conditionPassed .al State.reset.cpsr = true ∧
    exec (.b .al (BitVec.ofInt 32 (-0x01FFFFF8))) State.reset = .next (State.reset.setPc 0xFE000008#32) :=
  ⟨by decide, by decide, by decide, rfl⟩
/-- Flag-setting to r0 and plain to r15; the rotation 0 and the greatest. -/
theorem witness_MoveImmediateResult :
    conditionPassed .al State.reset.cpsr = true ∧ ¬(true = true ∧ (0 : Reg) = 15) ∧ ¬(false = true ∧ (15 : Reg) = 15) := by
  decide
theorem witness_MoveShiftedByImmediateResult :
    conditionPassed .cc State.reset.cpsr = true ∧ ¬(true = true ∧ (14 : Reg) = 15) ∧ ¬(false = true ∧ (15 : Reg) = 15) := by
  decide
theorem witness_MoveShiftedByRegisterResult :
    conditionPassed .pl State.reset.cpsr = true ∧ ¬(true = true ∧ (14 : Reg) = 15) ∧ ¬(false = true ∧ (15 : Reg) = 15) := by
  decide
theorem witness_FlagSettingMoveToPcReportsNotImplemented : conditionPassed .al State.reset.cpsr = true := by decide
theorem witness_ShiftByImmediateTable : (0#5 : BitVec 5) = 0#5 ∧ (1#5 : BitVec 5) ≠ 0#5 ∧ (31#5 : BitVec 5) ≠ 0#5 := by decide
/-- The amounts at which the clauses meet: 0, 1, 31, 32, 33, 64, 255. -/
theorem witness_ShiftByRegisterTable :
    (0#8 : BitVec 8) = 0#8 ∧ 1 ≤ (1#8).toNat ∧ (1#8).toNat ≤ 31 ∧ 1 ≤ (31#8).toNat ∧ (31#8).toNat ≤ 31 ∧ (32#8).toNat = 32 ∧
    33 ≤ (33#8).toNat ∧ 33 ≤ (255#8).toNat ∧ 32 ≤ (64#8).toNat ∧ (64#8).toNat % 32 = 0 ∧ (32#8).toNat % 32 = 0 ∧
    (33#8).toNat % 32 ≠ 0 ∧ (255#8).toNat % 32 ≠ 0 := by decide
theorem witness_FieldMaskSelectsWholeBytes : 0 < 32 ∧ 31 < 32 := by decide
theorem witness_TransferToCpsrResult : conditionPassed .al (State.reset.setMode .irq).cpsr = true ∧ 31 < 32 := by decide
theorem witness_TransferToSpsrResult :
    conditionPassed .al (State.reset.setMode .fiq).cpsr = true ∧ (State.reset.setMode .fiq).mode ≠ .system ∧
    SpsrMode.irq ≠ .fiq := by decide
theorem witness_TransferToSpsrReportsInSystemMode :
    conditionPassed .al State.reset.cpsr = true ∧ State.reset.mode = .system := by decide
theorem witness_InstructionsReportOnlyInTheNamedCases :
    exec (.movImm .al true 15 0#4 0#8) State.reset = .fault (.notImplemented State.reset.pc) ∧
    exec (.msrSpsrReg .al 0#4 0) State.reset = .fault .modeContextViolation := ⟨rfl, rfl⟩
/-- A branch, a Move to r15 and a Move to r0. -/
theorem witness_PcAdvancesByFourUnlessRedirected :
    (∃ t, exec (.bl .al 0xD0#32) State.reset = .next t) ∧ (∃ t, exec (.movImm .al false 15 0#4 0xFF#8) State.reset = .next t) ∧
    (∃ t, exec (.movImm .al false 0 0#4 0xFF#8) State.reset = .next t) ∧ conditionPassed .al State.reset.cpsr = true :=
  ⟨⟨_, rfl⟩, ⟨_, rfl⟩, ⟨_, rfl⟩, by decide⟩
/-- Steps that do change each group of bits: a Move sets Z, an MSR sets V, an MSR sets bit 0. -/
theorem witness_FlagsAreWrittenOnlyByTheListedInstructions :
    (∃ t, exec (.movImm .al true 0 0#4 0#8) State.reset = .next t ∧
      t.cpsr.extractLsb' 29 3 ≠ State.reset.cpsr.extractLsb' 29 3) ∧
    (∃ t, exec (.msrCpsrImm .al 8#4 2#4 0x0F#8) State.reset = .next t ∧ t.cpsr.getLsbD 28 ≠ State.reset.cpsr.getLsbD 28) ∧
    (∃ t, exec (.msrCpsrImm .al 1#4 0#4 0x1F#8) State.reset = .next t ∧
      t.cpsr.extractLsb' 0 28 ≠ State.reset.cpsr.extractLsb' 0 28) :=
  ⟨⟨_, rfl, by decide⟩, ⟨_, rfl, by decide⟩, ⟨_, rfl, by decide⟩⟩
theorem witness_StepRunsTheDecodedInstruction :
    (start 0xEA000032#32 0x03007FFC#32 .system 0#32).mem.read 0x03007FFC#32 4 = .next [0x32, 0x00, 0x00, 0xEA] ∧
    (start 0xEA000032#32 0x03007FFC#32 .system 0#32).pc = 0x03007FFC#32 ∧
    decodeBytes [0x32, 0x00, 0x00, 0xEA] = .ok (.b .al 0xD0#32) := ⟨rfl, rfl, rfl⟩
/-- The first address past the boot ROM, and the last three fetch addresses of it. -/
theorem witness_FetchFaultChangesNothing :
    (State.reset.setPc 0x00004000#32).mem.read 0x00004000#32 4 = .fault (.addressingFault 0x00004000#32 4) ∧
    (State.reset.setPc 0x00003FFD#32).mem.read 0x00003FFD#32 4 = .fault (.addressingFault 0x00003FFD#32 4) := ⟨rfl, rfl⟩
theorem witness_DecodeMissAdvancesOnlyThePc :
    State.reset.mem.readU32 State.reset.pc = .next 0x00000000#32 ∧ decode 0x00000000#32 = none := ⟨rfl, by decide⟩
theorem witness_StepsNeverWriteMemoryOrMode :
    ∃ t, step (start 0xE3A00012#32 0x03000000#32 .irq 0#32) = .next t := ⟨_, rfl⟩
/-- The host writes the first word of internal work RAM while the pc is there; the second part needs only a word that
decodes. -/
theorem witness_NextFetchSeesTheWrittenWord :
    State.reset.mem.wf ∧
    (∃ m, State.reset.mem.write State.reset.pc
      [(0xE3A00012#32).extractLsb' 0 8, (0xE3A00012#32).extractLsb' 8 8, (0xE3A00012#32).extractLsb' 16 8,
        (0xE3A00012#32).extractLsb' 24 8] = .next m) ∧
    decode 0xE3A00012#32 = some (.movImm .al false 0 0#4 0x12#8) ∧
    decode (BitVec.ofNat 32 0xE3A00012) = some (.movImm .al false 0 0#4 0x12#8) :=
  ⟨by decide, ⟨_, rfl⟩, by decide, by decide⟩
theorem witness_SelfBranchIsAFixedPoint : Ended .selfBranch 0 (start 0xEAFFFFFE#32 0x03000100#32 .system 0#32) := by
  show (start 0xEAFFFFFE#32 0x03000100#32 .system 0#32).mem.readU32 _ = _
  rfl
/-- An access that fits to the last byte of its block, one that does not, and their lengths. -/
theorem witness_AccessSucceedsExactlyWithinItsBlock :
    1 ≤ 4 ∧ Memory.initial.read 0x03007FFC#32 4 = .next [0, 0, 0, 0] ∧
    Memory.initial.read 0x03007FFD#32 4 = .fault (.addressingFault 0x03007FFD#32 4) := ⟨by decide, rfl, rfl⟩
theorem witness_ReadOfAWordIsLittleEndian :
    cartridge.read 0x0A000002#32 4 = .next [0x30, 0x40, 0x50, 0x60] ∧ cartridge.readU32 0x0A000002#32 = .next 0x60504030#32 ∧
    cartridge.readU32 0x0A000005#32 = .fault (.addressingFault 0x0A000005#32 4) :=
  ⟨answers (by decide), answers (by decide), reports (by decide)⟩
/-- A write through a window; a byte of the first window that it stores, and one beside it. -/
theorem witness_WriteStoresItsBytesAndNoOthers :
    cartridge.wf ∧ [0xAA#8] ≠ [] ∧ cartridge.read 0x0A000001#32 1 = .next [0x20] ∧
    cartridge.owner 0x0A000001#32 1 = some ⟨.cartridgeRom, 0x0A000000, 8⟩ ∧
    cartridge.owner 0x08000002#32 1 = some ⟨.cartridgeRom, 0x08000000, 8⟩ ∧
    ¬((⟨.cartridgeRom, 0x0A000000, 8⟩ : Block).backing 0x0A000001 ≤ (⟨.cartridgeRom, 0x08000000, 8⟩ : Block).backing 0x08000002 ∧
      (⟨.cartridgeRom, 0x08000000, 8⟩ : Block).backing 0x08000002
        < (⟨.cartridgeRom, 0x0A000000, 8⟩ : Block).backing 0x0A000001 + 1) ∧
    cartridge.read 0x0A000008#32 1 = .fault (.addressingFault 0x0A000008#32 1) :=
  ⟨by decide, by decide, answers (by decide), by decide, by decide, by decide, reports (by decide)⟩
theorem witness_CartridgeWindowsShareOneBuffer :
    cartridge.wf ∧ cartridge.romLen = some 8 ∧ 1 ≤ 4 ∧ 4 + 4 ≤ 8 ∧ 0x0C000000 ∈ [0x08000000, 0x0A000000, 0x0C000000] ∧
    [1#8, 2#8, 3#8, 4#8].length = 4 := by decide
/-- The last offset of a window and the first past the image. -/
theorem witness_LoadCartridgeReplacesTheBuffer :
    cartridge.wf ∧ [1#8, 2#8].length ≤ 0x02000000 ∧ [1#8, 2#8] ≠ [] ∧ [1#8, 2#8].length ≤ 2 ∧ 2 < 0x02000000 ∧
    [1#8, 2#8].length ≤ 0x01FFFFFF ∧ 0x01FFFFFF < 0x02000000 ∧ (0x07FFFFFF#32).toNat < 0x08000000 ∧
    0x0E000000 ≤ (0x0E000000#32).toNat := by
  refine ⟨?_, ?_, ?_, ?_, ?_, ?_, ?_, ?_, ?_⟩ <;> decide
/-- The first and the last address of each gap, with no cartridge and with one of eight bytes. -/
theorem witness_AccessesInTheGapsAreRefused :
    Memory.initial.wf ∧ cartridge.wf ∧ cartridge.romLen = some 8 ∧
    [0x00004000#32, 0x01FFFFFF#32, 0x02040000#32, 0x02FFFFFF#32, 0x03008000#32, 0x03FFFFFF#32, 0x04000400#32, 0x04FFFFFF#32,
      0x05000400#32, 0x05FFFFFF#32, 0x06018000#32, 0x06FFFFFF#32, 0x07000400#32, 0x07FFFFFF#32, 0x08000000#32, 0x0DFFFFFF#32,
      0x0E010000#32, 0xFFFFFFFF#32].map (fun a => reported (Memory.initial.read a 1)) =
    [0x00004000#32, 0x01FFFFFF#32, 0x02040000#32, 0x02FFFFFF#32, 0x03008000#32, 0x03FFFFFF#32, 0x04000400#32, 0x04FFFFFF#32,
      0x05000400#32, 0x05FFFFFF#32, 0x06018000#32, 0x06FFFFFF#32, 0x07000400#32, 0x07FFFFFF#32, 0x08000000#32, 0x0DFFFFFF#32,
      0x0E010000#32, 0xFFFFFFFF#32].map (fun a => some (.addressingFault a 1)) ∧
    0x08000000 + 8 ≤ (0x08000008#32).toNat ∧ (0x09FFFFFF#32).toNat ≤ 0x08000000 + 0x01FFFFFF ∧
    0x0C000000 + 8 ≤ (0x0DFFFFFF#32).toNat ∧ (0x0DFFFFFF#32).toNat ≤ 0x0C000000 + 0x01FFFFFF := by
  refine ⟨?_, ?_, ?_, ?_, ?_, ?_, ?_, ?_⟩ <;> decide
theorem witness_InputsOutsideTheContractAreRefused : ∃ image : List Byte, image.length = 0x02000001 := imageOfLength _
theorem witness_BusResetZeroesAndUnmapsTheCartridge :
    (State.reset.withMem cartridge).resetBus.mem.read 0x03007FFF#32 1 = .next [0] ∧
    0x08000000 ≤ (0x08000000#32).toNat ∧ (0x0DFFFFFF#32).toNat ≤ 0x0DFFFFFF := ⟨rfl, by decide, by decide⟩
theorem witness_EveryOperationKeepsTheInvariant :
    loadedSmall.Inv ∧ (∃ t, step (start 0xE3A00012#32 0x03000000#32 .system 0#32) = .next t) ∧
    (start 0xE3A00012#32 0x03000000#32 .system 0#32).Inv :=
  ⟨by show loadedSmall.mem.wf; decide, ⟨_, rfl⟩, by show (start 0xE3A00012#32 0x03000000#32 .system 0#32).mem.wf; decide⟩
/-- An operation that reports, one that is refused, a step that reports a fetch fault. -/
theorem witness_ReportsLeaveTheStateUnchanged :
    (performOp .spsr State.reset).1 = .report .modeContextViolation ∧
    (performOp (.read 0#32 0) State.reset).1 = .refused .zeroLengthAccess ∧
    (performOp .step (State.reset.setPc 0x00004000#32)).1 = .stepped (.addressingFault 0x00004000#32 4) := by decide
/-- System mode hides F8; FIQ hides S8; both hide the other modes' status registers. -/
theorem witness_StepsLeaveOtherModesRegistersAlone :
    Hidden .system (.f 0) ∧ Hidden .fiq (.s 0) ∧ Hidden .irq (.p14 .supervisor) ∧ Mode.irq.spsr? ≠ some .fiq ∧
    ∃ t, step (start 0xE3A00012#32 0x03000000#32 .irq 0#32) = .next t :=
  ⟨by unfold Hidden; decide, by unfold Hidden; decide, by unfold Hidden; decide, by decide, ⟨_, rfl⟩⟩
/-- Two different states with one view: only a hidden cell differs. -/
theorem witness_StepsAreBlindToOtherModesRegisters :
    SameView (start 0xE3A00012#32 0x03000000#32 .system 0#32)
      ((start 0xE3A00012#32 0x03000000#32 .system 0#32).writeCell (.f 0) 1#32) ∧
    (start 0xE3A00012#32 0x03000000#32 .system 0#32).writeCell (.f 0) 1#32 ≠ start 0xE3A00012#32 0x03000000#32 .system 0#32 := by
  refine ⟨⟨by decide, by decide, by decide, by decide, fun m h => ?_⟩, by decide⟩
  cases m <;> rfl

end Sys2Proof.Tests
end

section
/-! PROOFS. The register file (10_state.md): the table of cells, `set_mode` followed by register accesses, the saved status
registers, and the state after reset. -/

namespace Sys2Proof.Machine

/-! ## The table of cells (10_state.md R23) -/

theorem phys_low (m : Mode) (i : Fin 8) : phys m ⟨i.val, by omega⟩ = .g i := by simp [phys]

theorem phys_fiq_high (i : Fin 7) : phys .fiq ⟨i.val + 8, by omega⟩ = .f i := by revert i; decide

theorem phys_unbanked {m : Mode} (h : m ≠ .fiq) (i : Fin 5) : phys m ⟨i.val + 8, by omega⟩ = .s ⟨i.val, by omega⟩ := by
  cases m with
  | fiq => exact absurd rfl h
  | system | supervisor | abort | irq | undefined => revert i; decide

theorem phys_13_of_priv {m : Mode} {p : PrivMode} (h : m.priv? = some p) : phys m 13 = .p13 p := by
  have hm : m ≠ .fiq := by rintro rfl; cases h
  simp [phys, h, hm]

theorem phys_14_of_priv {m : Mode} {p : PrivMode} (h : m.priv? = some p) : phys m 14 = .p14 p := by
  have hm : m ≠ .fiq := by rintro rfl; cases h
  simp [phys, h, hm]

/-! ## Register accesses after `set_mode` (10_state.md R25 to R27) -/

@[simp] theorem setMode_mode (s : State) (m : ModeName) : (s.setMode m).mode = m.stored := rfl

@[simp] theorem setMode_readCell (s : State) (m : ModeName) (c : PhysCell) : (s.setMode m).readCell c = s.readCell c := by
  simp [State.setMode]

@[simp] theorem setMode_get (s : State) (m : ModeName) (i : Reg) :
    (s.setMode m).get i = s.readCell (phys m.stored i) := by
  simp [State.setMode]

theorem setMode_set_readCell (s : State) (m : ModeName) (i : Reg) (v : Word) (c : PhysCell) :
    ((s.setMode m).set i v).readCell c = if c = phys m.stored i then v else s.readCell c := by
  rw [set_readCell, setMode_mode, setMode_readCell]

/-- A value set under one mode is got under another exactly when the two indices share a cell. -/
theorem setMode_set_setMode_get (s : State) (m n : ModeName) (i j : Reg) (v : Word) :
    (((s.setMode m).set i v).setMode n).get j =
      if phys n.stored j = phys m.stored i then v else (s.setMode n).get j := by
  simp only [setMode_get, setMode_set_readCell]

/-- Settles O4: each row of the table is a lemma about `phys`, and the worked consequences compare two cells of it. -/
theorem everyIndexResolvesToItsTableCell : Obligations.EveryIndexResolvesToItsTableCell := by
  unfold Obligations.EveryIndexResolvesToItsTableCell
  refine ⟨phys_low, phys_pc, phys_fiq_high, fun m i h => phys_unbanked h i, rfl, rfl,
    phys_13_of_priv rfl, phys_14_of_priv rfl, phys_13_of_priv rfl, phys_14_of_priv rfl,
    phys_13_of_priv rfl, phys_14_of_priv rfl, phys_13_of_priv rfl, phys_14_of_priv rfl,
    fun s v => ?_, fun s v => ?_, fun s m => ?_⟩
  · have same : phys .system 9 = phys .supervisor 9 := by decide
    rw [setMode_set_setMode_get]; exact if_pos same
  · have apart : phys .system 9 ≠ phys .fiq 9 := by decide
    rw [setMode_set_setMode_get]; exact if_neg apart
  · simp

/-- Settles O6: under every mode r15 is the cell S15, by `phys_pc`. -/
theorem everyModeSharesTheOneProgramCounter : Obligations.EveryModeSharesTheOneProgramCounter := by
  unfold Obligations.EveryModeSharesTheOneProgramCounter
  intro s m n v
  refine ⟨?_, ?_, ?_, fun c hc => ?_⟩
  · rw [setMode_get, phys_pc]
  · rw [setMode_set_readCell, phys_pc, if_pos rfl]
  · rw [setMode_set_setMode_get, phys_pc, phys_pc, if_pos rfl]
  · rw [setMode_set_readCell, phys_pc, if_neg hc]

/-! ## The saved status registers (10_state.md R31, R32) -/

theorem getSpsr_of_none {s : State} (h : s.mode.spsr? = none) : s.getSpsr = .fault .modeContextViolation := by
  simp [State.getSpsr, h]

theorem getSpsr_of_some {s : State} {k : SpsrMode} (h : s.mode.spsr? = some k) : s.getSpsr = .next (s.readSpsr k) := by
  simp [State.getSpsr, h]

theorem setSpsr_of_none {s : State} (v : Word) (h : s.mode.spsr? = none) :
    s.setSpsr v = .fault .modeContextViolation := by
  simp [State.setSpsr, h]

theorem setSpsr_of_some {s : State} {k : SpsrMode} (v : Word) (h : s.mode.spsr? = some k) :
    s.setSpsr v = .next (s.writeSpsr k v) := by
  simp [State.setSpsr, h]

theorem writeSpsr_onlyCells (s : State) (k : SpsrMode) (v : Word) : OnlyCells [] s (s.writeSpsr k v) :=
  ⟨writeSpsr_mode .., writeSpsr_mem .., fun _ => by rw [writeSpsr_mem], fun _ _ => writeSpsr_readCell ..⟩

/-- Settles O9: `Mode.spsr?` is `none` in System mode alone, and the two accesses follow it. -/
theorem spsrAccessFailsExactlyInSystemMode : Obligations.SpsrAccessFailsExactlyInSystemMode := by
  unfold Obligations.SpsrAccessFailsExactlyInSystemMode
  intro s v
  refine ⟨fun hsys => ?_, fun k hk => ?_, fun hsys => ?_⟩
  · have hnone : s.mode.spsr? = none := (spsr?_eq_none _).mpr hsys
    refine ⟨getSpsr_of_none hnone, setSpsr_of_none v hnone, ?_⟩
    simp only [performOp, setSpsr_of_none v hnone, command]
  · exact ⟨getSpsr_of_some hk, s.writeSpsr k v, setSpsr_of_some v hk, writeSpsr_readSpsr_same ..,
      fun _ hj => writeSpsr_readSpsr_ne hj, writeSpsr_cpsr .., writeSpsr_onlyCells ..⟩
  · exact Option.ne_none_iff_exists'.mp (mt (spsr?_eq_none _).mp hsys)

/-! ## Reset, construction, load (10_state.md R36, 70_reset_and_hazards.md R190 to R194) -/

theorem bytesAt_nil (k n : Nat) : bytesAt k [] n = List.replicate n 0 := by
  induction n generalizing k with
  | zero => rfl
  | succ n ih => rw [bytesAt, ih, List.replicate_succ]; rfl

/-- Every byte of the bus after its reset is zero (20_memory.md R60). -/
theorem initial_read_eq_zeros {a : Word} {n : Nat} {bs : List Byte} (h : Memory.initial.read a n = .next bs) :
    bs = List.replicate n 0 := by
  obtain ⟨-, b, -, rfl⟩ := read_eq_next.mp h
  exact bytesAt_nil _ n

theorem load_of_loadCartridge {s : State} {image : List Byte} {m : Memory} (h : s.mem.loadCartridge image = .next m) :
    s.load image = .next ((s.withMem m).setPc 0x08000000#32) := by
  simp only [State.load, h]

/-- `load` succeeds within the limit of 20_memory.md R72 and leaves the pc at the cartridge base. -/
theorem load_pc (s : State) {image : List Byte} (h : image.length ≤ 0x02000000) :
    ∃ t, s.load image = .next t ∧ t.pc = 0x08000000#32 :=
  ⟨_, load_of_loadCartridge (loadCartridge_eq_next.mpr ⟨h, rfl⟩), setPc_pc ..⟩

/-- The register file's reset leaves the register file of the reset state beside the bus it found. -/
theorem resetRegisters_values (s : State) :
    s.resetRegisters.mode = .system ∧ (∀ c, s.resetRegisters.readCell c = 0) ∧ s.resetRegisters.cpsr = 0 ∧
      (∀ k, s.resetRegisters.readSpsr k = 0) ∧ s.resetRegisters.mem = s.mem := by
  simp [State.resetRegisters]

/-- Settles O1: the fields of the reset state are known one by one, and its bus lists no byte. -/
theorem resetLeavesEveryElementAtItsTableValue : Obligations.ResetLeavesEveryElementAtItsTableValue := by
  unfold Obligations.ResetLeavesEveryElementAtItsTableValue
  exact ⟨resetRegisters_values, fun s => ⟨rfl, rfl, rfl, rfl⟩, rfl, rfl, fun _ _ _ => initial_read_eq_zeros,
    fun _ => load_pc State.reset⟩

end Sys2Proof.Machine
end

section
/-! PROOFS. The memory bus (20_memory.md): the little-endian word that `read_u32` assembles, and the default layout. -/

namespace Sys2Proof.Machine

/-! ## The word that four bytes stand for (20_memory.md R57, R61) -/

theorem leNat_lt (bs : List Byte) : leNat bs < 256 ^ bs.length := by
  induction bs with
  | nil => exact Nat.one_pos
  | cons b bs ih =>
    have hb : b.toNat < 256 := b.isLt
    rw [leNat, List.length_cons, Nat.pow_succ']
    omega

/-- Four bytes fit a word, so assembling them loses nothing. -/
theorem leWord_toNat {bs : List Byte} (h : bs.length = 4) : (leWord bs).toNat = leNat bs := by
  have hlt : leNat bs < 2 ^ 32 := by simpa [h] using leNat_lt bs
  rw [leWord, BitVec.toNat_ofNat, Nat.mod_eq_of_lt hlt]

theorem leNat_four (b0 b1 b2 b3 : Byte) :
    leNat [b0, b1, b2, b3] = b0.toNat + 2 ^ 8 * b1.toNat + 2 ^ 16 * b2.toNat + 2 ^ 24 * b3.toNat := by
  simp only [leNat]
  omega

theorem eq_leWord_four {w : Word} {b0 b1 b2 b3 : Byte} : w = leWord [b0, b1, b2, b3] ↔
    w.toNat = b0.toNat + 2 ^ 8 * b1.toNat + 2 ^ 16 * b2.toNat + 2 ^ 24 * b3.toNat := by
  rw [← leNat_four, ← leWord_toNat (bs := [b0, b1, b2, b3]) rfl, BitVec.toNat_inj]

/-! ## `read_u32` follows the read of four bytes (20_memory.md R57) -/

theorem length_of_read_eq_next {m : Memory} {a : Word} {n : Nat} {bs : List Byte} (h : m.read a n = .next bs) :
    bs.length = n := by
  obtain ⟨-, b, -, rfl⟩ := read_eq_next.mp h
  exact bytesAt_length ..

theorem readU32_eq_next_iff_read {m : Memory} {a w : Word} :
    m.readU32 a = .next w ↔ ∃ bs, m.read a 4 = .next bs ∧ w = leWord bs := by
  unfold Memory.readU32
  cases m.read a 4 <;> simp [eq_comm]

theorem readU32_eq_fault_iff_read {m : Memory} {a : Word} {r : Fault} :
    m.readU32 a = .fault r ↔ m.read a 4 = .fault r := by
  unfold Memory.readU32
  cases m.read a 4 <;> simp

/-- Settles O49: `read_u32` succeeds and fails with the read of four bytes, whose bytes the word's value determines. -/
theorem readOfAWordIsLittleEndian : Obligations.ReadOfAWordIsLittleEndian := by
  unfold Obligations.ReadOfAWordIsLittleEndian
  refine fun m a => ⟨fun w => readU32_eq_next_iff_read.trans ⟨?_, ?_⟩, fun r => readU32_eq_fault_iff_read⟩
  · rintro ⟨bs, hread, hw⟩
    obtain ⟨b0, b1, b2, b3, rfl⟩ := List.length_eq_four.mp (length_of_read_eq_next hread)
    exact ⟨b0, b1, b2, b3, hread, eq_leWord_four.mp hw⟩
  · rintro ⟨b0, b1, b2, b3, hread, hw⟩
    exact ⟨_, hread, eq_leWord_four.mpr hw⟩

/-! ## The default layout (20_memory.md R52) -/

/-- With no cartridge image the windows of R53 are not installed. -/
theorem blocks_of_romLen_none {m : Memory} (h : m.romLen = none) : m.blocks = blocksBelowRom ++ blocksAboveRom := by
  simp only [Memory.blocks, h]

theorem construction_blocks (s : State) :
    (performOp .construction s).2.mem.blocks = blocksBelowRom ++ blocksAboveRom :=
  blocks_of_romLen_none rfl

theorem resetBus_blocks (s : State) : (performOp .resetBus s).2.mem.blocks = blocksBelowRom ++ blocksAboveRom :=
  blocks_of_romLen_none rfl

/-- Settles O47: construction and the bus reset leave no cartridge image, so the layout is the default one. -/
theorem defaultBlocksAreTheEightOfTheMap : Obligations.DefaultBlocksAreTheEightOfTheMap := by
  unfold Obligations.DefaultBlocksAreTheEightOfTheMap
  refine ⟨?_, fun s => ⟨?_, ?_⟩⟩
  · rw [construction_blocks]; rfl
  · rw [construction_blocks, construction_blocks]
  · rw [resetBus_blocks, construction_blocks]

end Sys2Proof.Machine
end

section
/-! PROOFS. The encoder followed by the decoder (30_encoding.md sections 2 to 4): the fields of a word that is put together
from placed fields, and the instruction that the decoder reads from it. -/

namespace Sys2Proof

/-! ## Reading a placed field back -/

@[simp] theorem placed_getElem {n : Nat} (x : BitVec n) (k j : Nat) (hj : j < 32) :
    (placed x k)[j] = (decide (k ≤ j) && x.getLsbD (j - k)) := by
  by_cases hk : k ≤ j
  · simp [placed, hk, Nat.not_lt.mpr hk]
  · simp [placed, hk, Nat.not_le.mp hk]

theorem extract_placed_same {n k : Nat} (x : BitVec n) (h : k + n ≤ 32) : (placed x k).extractLsb' k n = x := by
  refine BitVec.eq_of_getLsbD_eq fun j hj => ?_
  have hlt : k + j < 32 := by omega
  simp [hj, hlt, BitVec.getLsbD_eq_getElem]

/-- A field above or below the placed one holds no bit of it. -/
theorem extract_placed_apart {n k lo len : Nat} (x : BitVec n) (hlen : lo + len ≤ 32) (h : k + n ≤ lo ∨ lo + len ≤ k) :
    (placed x k).extractLsb' lo len = 0#len := by
  refine BitVec.eq_of_getLsbD_eq fun j hj => ?_
  have hlt : lo + j < 32 := by omega
  rcases h with h | h
  · have hx : x.getLsbD (lo + j - k) = false := BitVec.getLsbD_of_ge _ _ (by omega)
    simp [hj, hlt, hx, BitVec.getLsbD_eq_getElem]
  · have hk : ¬ k ≤ lo + j := by omega
    simp [hj, hlt, hk, BitVec.getLsbD_eq_getElem]

/-! ## The decoded fields of each instruction's word -/

/-- The immediate field of a well-formed offset gives the offset back (30_encoding.md R87, R96). -/
theorem branchOffset_branchImm24 {o : Word} (ha : offsetAligned o = true) (hr : offsetInRange o = true) :
    branchOffset (branchImm24 o) = o := by
  have hlow : o.toNat % 4 = 0 := by
    have := congrArg BitVec.toNat (eq_of_beq ha)
    simpa [BitVec.extractLsb'_toNat] using this
  simp only [offsetInRange, Bool.and_eq_true, decide_eq_true_eq] at hr
  have hsub : (o - 8#32).toNat = (o.toNat + (2 ^ 32 - 8)) % 2 ^ 32 := by
    rw [BitVec.toNat_sub]; simp [Nat.add_comm]
  have himm : (branchImm24 o).toNat = (o - 8#32).toNat / 4 % 2 ^ 24 := by
    simp [branchImm24, BitVec.extractLsb'_toNat, Nat.shiftRight_eq_div_pow]
  have hlt := o.isLt
  apply BitVec.eq_of_toInt_eq
  rw [branchOffset_toInt]
  simp only [BitVec.toInt_eq_toNat_cond] at hr ⊢
  rw [himm, hsub]
  omega

theorem decodeBranch_encode_b {c : Cond} {o : Word} (h : (Instr.b c o).wellFormed = true) :
    decodeBranch (encode (.b c o)) = .b c o := by
  obtain ⟨ha, hr⟩ := Bool.and_eq_true_iff.mp h
  simp [decodeBranch, encode, BitVec.extractLsb'_or, extract_placed_same, extract_placed_apart,
    branchOffset_branchImm24 ha hr]

theorem decodeBranch_encode_bl {c : Cond} {o : Word} (h : (Instr.bl c o).wellFormed = true) :
    decodeBranch (encode (.bl c o)) = .bl c o := by
  obtain ⟨ha, hr⟩ := Bool.and_eq_true_iff.mp h
  simp [decodeBranch, encode, BitVec.extractLsb'_or, extract_placed_same, extract_placed_apart,
    branchOffset_branchImm24 ha hr]

theorem decodeMovImm_encode (c : Cond) (f : Bool) (rd : Reg) (rot : BitVec 4) (imm8 : BitVec 8) :
    decodeMovImm (encode (.movImm c f rd rot imm8)) = .movImm c f rd rot imm8 := by
  simp [decodeMovImm, encode, BitVec.extractLsb'_or, extract_placed_same, extract_placed_apart]

theorem decodeMovRegImm_encode (c : Cond) (f : Bool) (rd rm : Reg) (t : ShiftType) (a : BitVec 5) :
    decodeMovRegImm (encode (.movRegImm c f rd rm t a)) = .movRegImm c f rd rm t a := by
  simp [decodeMovRegImm, encode, BitVec.extractLsb'_or, extract_placed_same, extract_placed_apart]

theorem decodeMovRegReg_encode (c : Cond) (f : Bool) (rd rm : Reg) (t : ShiftType) (rs : Reg) :
    decodeMovRegReg (encode (.movRegReg c f rd rm t rs)) = .movRegReg c f rd rm t rs := by
  simp [decodeMovRegReg, encode, BitVec.extractLsb'_or, extract_placed_same, extract_placed_apart]

theorem decodePsrImm_encode_cpsr (c : Cond) (f rot : BitVec 4) (imm8 : BitVec 8) :
    decodePsrImm (encode (.msrCpsrImm c f rot imm8)) = .msrCpsrImm c f rot imm8 := by
  simp [decodePsrImm, encode, BitVec.extractLsb'_or, extract_placed_same, extract_placed_apart]

theorem decodePsrImm_encode_spsr (c : Cond) (f rot : BitVec 4) (imm8 : BitVec 8) :
    decodePsrImm (encode (.msrSpsrImm c f rot imm8)) = .msrSpsrImm c f rot imm8 := by
  simp [decodePsrImm, encode, BitVec.extractLsb'_or, extract_placed_same, extract_placed_apart]

theorem decodePsrReg_encode_cpsr (c : Cond) (f : BitVec 4) (rm : Reg) :
    decodePsrReg (encode (.msrCpsrReg c f rm)) = .msrCpsrReg c f rm := by
  simp [decodePsrReg, encode, BitVec.extractLsb'_or, extract_placed_same, extract_placed_apart]

theorem decodePsrReg_encode_spsr (c : Cond) (f : BitVec 4) (rm : Reg) :
    decodePsrReg (encode (.msrSpsrReg c f rm)) = .msrSpsrReg c f rm := by
  simp [decodePsrReg, encode, BitVec.extractLsb'_or, extract_placed_same, extract_placed_apart]

/-- Settles O10: the word has the fixed bits of its row, which fixes its class, and each field is read from where `encode`
placed it. -/
theorem decodeOfEncodeIsTheInstruction : Obligations.DecodeOfEncodeIsTheInstruction := by
  unfold Obligations.DecodeOfEncodeIsTheInstruction
  intro i hwf
  cases i with
  | b c o =>
    have row : encode (.b c o) &&& 0x0F000000#32 = 0x0A000000#32 := Laws.EncodeRow.b c o
    rw [decode_of_branch (mask_implied row rfl rfl), decodeBranch_encode_b hwf]
  | bl c o =>
    have row : encode (.bl c o) &&& 0x0F000000#32 = 0x0B000000#32 := Laws.EncodeRow.bl c o
    rw [decode_of_branch (mask_implied row rfl rfl), decodeBranch_encode_bl hwf]
  | movImm c f rd rot imm8 =>
    rw [decode_of_movImm (Laws.EncodeRow.movImm c f rd rot imm8), decodeMovImm_encode]
  | movRegImm c f rd rm t a =>
    rw [decode_of_movRegImm (Laws.EncodeRow.movRegImm c f rd rm t a), decodeMovRegImm_encode]
  | movRegReg c f rd rm t rs =>
    rw [decode_of_movRegReg (Laws.EncodeRow.movRegReg c f rd rm t rs), decodeMovRegReg_encode]
  | msrCpsrImm c f rot imm8 =>
    have row : encode (.msrCpsrImm c f rot imm8) &&& 0x0FF0F000#32 = 0x0320F000#32 := Laws.EncodeRow.msrCpsrImm c f rot imm8
    rw [decode_of_psrImm (mask_implied row rfl rfl), decodePsrImm_encode_cpsr]
  | msrSpsrImm c f rot imm8 =>
    have row : encode (.msrSpsrImm c f rot imm8) &&& 0x0FF0F000#32 = 0x0360F000#32 := Laws.EncodeRow.msrSpsrImm c f rot imm8
    rw [decode_of_psrImm (mask_implied row rfl rfl), decodePsrImm_encode_spsr]
  | msrCpsrReg c f rm =>
    have row : encode (.msrCpsrReg c f rm) &&& 0x0FF0F0F0#32 = 0x0120F000#32 := Laws.EncodeRow.msrCpsrReg c f rm
    rw [decode_of_psrReg (mask_implied row rfl rfl), decodePsrReg_encode_cpsr]
  | msrSpsrReg c f rm =>
    have row : encode (.msrSpsrReg c f rm) &&& 0x0FF0F0F0#32 = 0x0160F000#32 := Laws.EncodeRow.msrSpsrReg c f rm
    rw [decode_of_psrReg (mask_implied row rfl rfl), decodePsrReg_encode_spsr]

end Sys2Proof
end

section
/-! PROOFS. The decoder (30_encoding.md): the class table in terms of fields, the rows of spec/opcode_table.json, the
fields of each format, and what encoding a decoded word gives. -/

namespace Sys2Proof

/-! ## The class table in terms of fields: both sides name the same bits -/

theorem psrImm_mask_iff (w : Word) : w &&& 0x0FB0F000#32 = 0x0320F000#32 ↔
    w.extractLsb' 25 3 = 0b001#3 ∧ w.extractLsb' 23 2 = 0b10#2 ∧ w.extractLsb' 20 2 = 0b10#2 ∧
      w.extractLsb' 12 4 = 0xF#4 := by
  simp [word_eq_iff, field_eq_iff, Fin.forall_fin_succ]
  tauto

theorem psrReg_mask_iff (w : Word) : w &&& 0x0FB0F0F0#32 = 0x0120F000#32 ↔
    w.extractLsb' 25 3 = 0b000#3 ∧ w.extractLsb' 23 2 = 0b10#2 ∧ w.extractLsb' 20 2 = 0b10#2 ∧
      w.extractLsb' 12 4 = 0xF#4 ∧ w.extractLsb' 4 4 = 0#4 := by
  simp [word_eq_iff, field_eq_iff, Fin.forall_fin_succ]
  tauto

theorem movImm_mask_iff (w : Word) : w &&& 0x0FE00000#32 = 0x03A00000#32 ↔
    w.extractLsb' 25 3 = 0b001#3 ∧ w.extractLsb' 21 4 = 0b1101#4 := by
  simp [word_eq_iff, field_eq_iff, Fin.forall_fin_succ]
  tauto

theorem movRegImm_mask_iff (w : Word) : w &&& 0x0FE00010#32 = 0x01A00000#32 ↔
    w.extractLsb' 25 3 = 0b000#3 ∧ w.extractLsb' 21 4 = 0b1101#4 ∧ w.getLsbD 4 = false := by
  simp [word_eq_iff, field_eq_iff, Fin.forall_fin_succ]
  tauto

theorem movRegReg_mask_iff (w : Word) : w &&& 0x0FE00090#32 = 0x01A00010#32 ↔
    w.extractLsb' 25 3 = 0b000#3 ∧ w.extractLsb' 21 4 = 0b1101#4 ∧ w.getLsbD 4 = true ∧ w.getLsbD 7 = false := by
  simp [word_eq_iff, field_eq_iff, Fin.forall_fin_succ]
  tauto

theorem branch_mask_iff (w : Word) : w &&& 0x0E000000#32 = 0x0A000000#32 ↔ w.extractLsb' 25 3 = 0b101#3 := by
  simp [word_eq_iff, field_eq_iff, Fin.forall_fin_succ]

/-! ## Recognition -/

/-- A word is recognised when it matches an entry of the class table. -/
theorem decode_isSome_iff (w : Word) : (decode w).isSome = true ↔
    w &&& 0x0FB0F000#32 = 0x0320F000#32 ∨ w &&& 0x0FB0F0F0#32 = 0x0120F000#32 ∨ w &&& 0x0FE00000#32 = 0x03A00000#32 ∨
    w &&& 0x0FE00010#32 = 0x01A00000#32 ∨ w &&& 0x0FE00090#32 = 0x01A00010#32 ∨
    w &&& 0x0E000000#32 = 0x0A000000#32 := by
  constructor
  · intro h
    obtain ⟨i, hi⟩ := Option.isSome_iff_exists.mp h
    exact (decode_cases hi).imp And.left <| .imp And.left <| .imp And.left <| .imp And.left <| .imp And.left And.left
  · rintro (h | h | h | h | h | h)
    · rw [decode_of_psrImm h]; rfl
    · rw [decode_of_psrReg h]; rfl
    · rw [decode_of_movImm h]; rfl
    · rw [decode_of_movRegImm h]; rfl
    · rw [decode_of_movRegReg h]; rfl
    · rw [decode_of_branch h]; rfl

/-- Settles O14: the class table in terms of fields, read off at each value of bits 27:25. -/
theorem recognitionByClassBits : Obligations.RecognitionByClassBits := by
  unfold Obligations.RecognitionByClassBits
  intro w
  rw [decode_isSome_iff, psrImm_mask_iff, psrReg_mask_iff, movImm_mask_iff, movRegImm_mask_iff, movRegReg_mask_iff,
    branch_mask_iff]
  generalize w.extractLsb' 25 3 = c
  have hc : ∀ c : BitVec 3, c = 0 ∨ c = 1 ∨ c = 2 ∨ c = 3 ∨ c = 4 ∨ c = 5 ∨ c = 6 ∨ c = 7 := by decide
  rcases hc c with rfl | rfl | rfl | rfl | rfl | rfl | rfl | rfl
  case inl =>
    cases w.getLsbD 4 <;> cases w.getLsbD 7 <;> simp [or_comm]
  all_goals simp [or_comm]

/-- Two entries of the class table disagree on a bit that both fix. -/
theorem classTable_conflict : ∀ e ∈ classTable, ∀ f ∈ classTable, e ≠ f → e.value &&& f.mask ≠ f.value &&& e.mask := by
  decide

/-- Settles O12: a word with the fixed bits of one entry lacks a fixed bit of every other. -/
theorem classTableEntriesAreDisjoint : Obligations.ClassTableEntriesAreDisjoint := by
  unfold Obligations.ClassTableEntriesAreDisjoint
  intro w e f he hf hwe hwf
  by_contra hne
  exact mask_conflict (eq_of_beq hwf) (classTable_conflict e he f hf hne) (eq_of_beq hwe)

/-- The condition of a decoded word is that of its condition field, whatever its class. -/
theorem decodeClass_cond (c : ClassName) (w : Word) : (decodeClass c w).cond = condOfBits (w.extractLsb' 28 4) := by
  cases c with
  | psrImm => simp only [decodeClass, decodePsrImm]; split <;> rfl
  | psrReg => simp only [decodeClass, decodePsrReg]; split <;> rfl
  | branch => simp only [decodeClass, decodeBranch]; split <;> rfl
  | movImm | movRegImmShift | movRegRegShift => rfl

/-- Settles O19: every mask of the class table lies within bits 27:0. -/
theorem recognitionIgnoresTheCondition : Obligations.RecognitionIgnoresTheCondition := by
  unfold Obligations.RecognitionIgnoresTheCondition
  intro w v hlow
  refine ⟨?_, fun i hi => ?_⟩
  · have agree : ∀ m : Word, 0x0FFFFFFF#32 &&& m = m → w &&& m = v &&& m := fun m hm => by
      have h28 : w &&& 0x0FFFFFFF#32 = v &&& 0x0FFFFFFF#32 :=
        (placed_extract w 0 28).symm.trans ((congrArg (placed · 0) hlow).trans (placed_extract v 0 28))
      rw [← hm, ← BitVec.and_assoc, h28, BitVec.and_assoc]
    rw [Bool.eq_iff_iff, decode_isSome_iff, decode_isSome_iff, agree _ rfl, agree _ rfl, agree _ rfl, agree _ rfl,
      agree _ rfl, agree _ rfl]
  · obtain ⟨c, -, rfl⟩ := Option.map_eq_some_iff.mp hi
    exact decodeClass_cond c w

/-! ## The rows of spec/opcode_table.json -/

/-- A mask with one more bit: the word's fixed bits and that bit. -/
theorem mask_or_twoPow {w m v : Word} {b : Bool} {k : Nat} (hb : w.getLsbD k = b) (h : w &&& m = v) :
    w &&& (m ||| BitVec.twoPow 32 k) = v ||| if b then BitVec.twoPow 32 k else 0#32 := by
  rw [BitVec.and_or_distrib_left, h, BitVec.and_twoPow, hb]

/-- A decoded word has the fixed bits of its instruction's row. -/
theorem decode_row {w : Word} {i : Instr} (h : decode w = some i) : w &&& i.rowMask = i.rowMatch := by
  rcases decode_cases h with ⟨hm, rfl⟩ | ⟨hm, rfl⟩ | ⟨hm, rfl⟩ | ⟨hm, rfl⟩ | ⟨hm, rfl⟩ | ⟨hm, rfl⟩
  · unfold decodePsrImm
    cases hb : w.getLsbD 22 <;> exact mask_or_twoPow hb hm
  · unfold decodePsrReg
    cases hb : w.getLsbD 22 <;> exact mask_or_twoPow hb hm
  · exact hm
  · exact hm
  · exact hm
  · unfold decodeBranch
    cases hb : w.getLsbD 24 <;> exact mask_or_twoPow hb hm

/-- Settles O13: a decoded word has its row's fixed bits, and a row's fixed bits are those of a class. -/
theorem recognisedWordsAreThoseOfTheOpcodeRows : Obligations.RecognisedWordsAreThoseOfTheOpcodeRows := by
  unfold Obligations.RecognisedWordsAreThoseOfTheOpcodeRows
  refine ⟨fun w i => decode_row, fun w => ⟨fun h => ?_, fun h => (decode_isSome_iff w).mpr ?_⟩⟩
  · obtain ⟨i, hi⟩ := Option.isSome_iff_exists.mp h
    have row := decode_row hi
    cases i <;> simp only [Instr.rowMask, Instr.rowMatch] at row <;> tauto
  · rcases h with h | h | h | h | h | h | h | h | h
    · exact .inr <| .inr <| .inr <| .inr <| .inr <| mask_implied h rfl rfl
    · exact .inr <| .inr <| .inr <| .inr <| .inr <| mask_implied h rfl rfl
    · exact .inr <| .inr <| .inl h
    · exact .inr <| .inr <| .inr <| .inl h
    · exact .inr <| .inr <| .inr <| .inr <| .inl h
    · exact .inl <| mask_implied h rfl rfl
    · exact .inl <| mask_implied h rfl rfl
    · exact .inr <| .inl <| mask_implied h rfl rfl
    · exact .inr <| .inl <| mask_implied h rfl rfl

end Sys2Proof
end

section
/-! PROOFS. The formats field by field (30_encoding.md sections 3 and 4), and the encoder after the decoder. -/

namespace Sys2Proof

/-! ## The offset of a branch and the rotated immediate (30_encoding.md R87, R88) -/

theorem branchImm24_branchOffset (x : BitVec 24) : branchImm24 (branchOffset x) = x := by
  refine BitVec.eq_of_getLsbD_eq fun j hj => ?_
  have hlow : ¬ 2 + j ≤ 1 := by omega
  have hhigh : 2 + j < 32 := by omega
  simp [branchImm24, branchOffset, BitVec.getElem_signExtend, hj, hlow, hhigh]

theorem branchOffset_bounds (x : BitVec 24) :
    -0x01FFFFF8 ≤ (branchOffset x).toInt ∧ (branchOffset x).toInt ≤ 0x02000004 := by
  have hlt := x.toInt_lt
  have hle := x.le_toInt
  rw [branchOffset_toInt]
  norm_num at hlt hle
  omega

/-- Settles O20: the signed value of the offset gives its range and its divisibility. -/
theorem branchOffsetIsSignedAndBiasedByEight : Obligations.BranchOffsetIsSignedAndBiasedByEight := by
  unfold Obligations.BranchOffsetIsSignedAndBiasedByEight
  refine ⟨fun x => ⟨rfl, branchOffset_toInt x, ?_, branchOffset_bounds x⟩, by decide, by decide, by decide, by decide⟩
  rw [branchOffset_toInt]
  omega

theorem branchOffset_wellFormed (x : BitVec 24) :
    offsetAligned (branchOffset x) = true ∧ offsetInRange (branchOffset x) = true := by
  obtain ⟨hlow, hhigh⟩ := branchOffset_bounds x
  refine ⟨?_, by simp only [offsetInRange, hlow, hhigh, decide_true, Bool.and_self]⟩
  have hval := branchOffset_toInt x
  rw [BitVec.toInt_eq_toNat_cond] at hval
  have hmod : (branchOffset x).toNat % 4 = 0 := by omega
  exact beq_iff_eq.mpr (BitVec.eq_of_toNat_eq (by simpa [BitVec.extractLsb'_toNat] using hmod))

end Sys2Proof

namespace Sys2Proof.Machine

theorem ror32_eq_rotateRight (v : Word) (n : Nat) : ror32 v n = v.rotateRight n := by
  rw [ror32, BitVec.rotateRight_def]
  split
  · next h => simp [h]
  · rfl

theorem rotatedImm_eq_rotateRight (rot : BitVec 4) (imm8 : BitVec 8) :
    rotatedImm rot imm8 = (imm8.setWidth 32).rotateRight (2 * rot.toNat) :=
  ror32_eq_rotateRight ..

/-- Settles O21: the two shifts of `ROR32` are the library's rotation. -/
theorem rotatedImmediateIsARightRotation : Obligations.RotatedImmediateIsARightRotation := by
  unfold Obligations.RotatedImmediateIsARightRotation
  refine ⟨ror32_eq_rotateRight, rotatedImm_eq_rotateRight, fun imm8 => ?_⟩
  have hlt : imm8.toNat < 4294967296 := by have := imm8.isLt; omega
  simp [rotatedImm, ror32, hlt]

end Sys2Proof.Machine

namespace Sys2Proof

/-! ## The formats field by field -/

/-- With bits 27:26 zero the class bits 27:25 are bit 25 alone. -/
theorem classBits_of_bit25 {w : Word} {b : Bool} (h26 : w.extractLsb' 26 2 = 0b00#2) (h25 : w.getLsbD 25 = b) :
    w.extractLsb' 25 3 = (BitVec.ofBool b).setWidth 3 := by
  cases b <;> simp_all [field_eq_iff, Fin.forall_fin_succ]

/-- Settles O15: bits 27:25 = 0b101 are the branch entry of the class table. -/
theorem branchWordsDecodeFieldByField : Obligations.BranchWordsDecodeFieldByField := by
  unfold Obligations.BranchWordsDecodeFieldByField
  exact fun w h => ⟨branchOffset (w.extractLsb' 0 24), branchOffset_toInt _, decode_of_branch ((branch_mask_iff w).mpr h)⟩

/-- A Move word is no status-register transfer: bits 24:23 tell them apart. -/
theorem move_not_transfer {w : Word} (h : w.extractLsb' 21 4 = 0b1101#4) : w.extractLsb' 23 2 ≠ 0b10#2 := by
  intro hw
  have set := (field_eq_iff w 21 _).mp h 2
  have clear := (field_eq_iff w 23 _).mp hw 0
  exact absurd (set.symm.trans clear) (by decide)

/-- Settles O16: each of the three forms is an entry of the class table, and bits 7 and 4 both set match none. -/
theorem moveWordsDecodeFieldByField : Obligations.MoveWordsDecodeFieldByField := by
  unfold Obligations.MoveWordsDecodeFieldByField
  intro w h26 h21
  refine ⟨fun h25 => ?_, fun h25 h4 => ?_, fun h25 h4 h7 => ?_, fun h25 h4 h7 => ?_⟩
  · exact decode_of_movImm ((movImm_mask_iff w).mpr ⟨classBits_of_bit25 h26 h25, h21⟩)
  · exact decode_of_movRegImm ((movRegImm_mask_iff w).mpr ⟨classBits_of_bit25 h26 h25, h21, h4⟩)
  · exact decode_of_movRegReg ((movRegReg_mask_iff w).mpr ⟨classBits_of_bit25 h26 h25, h21, h4, h7⟩)
  · rw [← Option.not_isSome_iff_eq_none, recognitionByClassBits w, classBits_of_bit25 h26 h25]
    simp [h4, h7, h21, move_not_transfer h21]

/-- Settles O17: each of the four forms is an entry of the class table by bit 25, its target by bit 22. -/
theorem transferWordsDecodeFieldByField : Obligations.TransferWordsDecodeFieldByField := by
  unfold Obligations.TransferWordsDecodeFieldByField
  intro w h26 h23 h20 h12
  have psrImm (h25 : w.getLsbD 25 = true) : decode w = some (decodePsrImm w) :=
    decode_of_psrImm ((psrImm_mask_iff w).mpr ⟨classBits_of_bit25 h26 h25, h23, h20, h12⟩)
  have psrReg (h25 : w.getLsbD 25 = false) (h4 : w.extractLsb' 4 4 = 0#4) : decode w = some (decodePsrReg w) :=
    decode_of_psrReg ((psrReg_mask_iff w).mpr ⟨classBits_of_bit25 h26 h25, h23, h20, h12, h4⟩)
  refine ⟨fun h25 h22 => ?_, fun h25 h22 => ?_, fun h25 h4 h22 => ?_, fun h25 h4 h22 => ?_, fun h25 h4 => ?_⟩
  · rw [psrImm h25, decodePsrImm, h22]; rfl
  · rw [psrImm h25, decodePsrImm, h22]; rfl
  · rw [psrReg h25 h4, decodePsrReg, h22]; rfl
  · rw [psrReg h25 h4, decodePsrReg, h22]; rfl
  · rw [← Option.not_isSome_iff_eq_none, recognitionByClassBits w, classBits_of_bit25 h26 h25]
    have h21 : w.extractLsb' 21 4 ≠ 0b1101#4 := fun h => move_not_transfer h h23
    simp [h4, h21]

/-- Settles O18: each word is decoded as it stands. -/
theorem sourceWordsDecodeAsTheSpecSays : Obligations.SourceWordsDecodeAsTheSpecSays := by
  unfold Obligations.SourceWordsDecodeAsTheSpecSays
  decide

/-! ## The encoder after the decoder -/

theorem placed_ofBool (w : Word) (k : Nat) :
    placed (BitVec.ofBool (w.getLsbD k)) k = w &&& placed (BitVec.allOnes 1) k := by
  have bit : BitVec.ofBool (w.getLsbD k) = w.extractLsb' k 1 := by
    refine BitVec.eq_of_getLsbD_eq fun j hj => ?_
    obtain rfl : j = 0 := by omega
    simp
  rw [← placed_extract, bit]

theorem encode_decodeMovImm {w : Word} (h : w &&& 0x0FE00000#32 = 0x03A00000#32) :
    encode (decodeMovImm w) = w &&& 0xFFF0FFFF#32 := by
  simp only [decodeMovImm, encode, condBits_condOfBits, regBits_regOfBits, placed_extract, placed_ofBool, ← h,
    ← BitVec.and_or_distrib_left]
  rfl

theorem encode_decodeMovRegImm {w : Word} (h : w &&& 0x0FE00010#32 = 0x01A00000#32) :
    encode (decodeMovRegImm w) = w &&& 0xFFF0FFFF#32 := by
  simp only [decodeMovRegImm, encode, condBits_condOfBits, regBits_regOfBits, shiftTypeBits_ofBits, placed_extract,
    placed_ofBool, ← h, ← BitVec.and_or_distrib_left]
  rfl

theorem encode_decodeMovRegReg {w : Word} (h : w &&& 0x0FE00090#32 = 0x01A00010#32) :
    encode (decodeMovRegReg w) = w &&& 0xFFF0FFFF#32 := by
  simp only [decodeMovRegReg, encode, condBits_condOfBits, regBits_regOfBits, shiftTypeBits_ofBits, placed_extract,
    placed_ofBool, ← h, ← BitVec.and_or_distrib_left]
  rfl

theorem encode_decodePsrImm {w : Word} (h : w &&& 0x0FB0F000#32 = 0x0320F000#32) :
    encode (decodePsrImm w) = w &&& 0xFFFFFFFF#32 := by
  cases hb : w.getLsbD 22 with
  | false =>
    have row : w &&& 0x0FF0F000#32 = 0x0320F000#32 := mask_or_twoPow hb h
    simp only [decodePsrImm, hb, Bool.false_eq_true, if_false, encode, condBits_condOfBits, placed_extract, ← row,
      ← BitVec.and_or_distrib_left]
    rfl
  | true =>
    have row : w &&& 0x0FF0F000#32 = 0x0360F000#32 := mask_or_twoPow hb h
    simp only [decodePsrImm, hb, if_true, encode, condBits_condOfBits, placed_extract, ← row,
      ← BitVec.and_or_distrib_left]
    rfl

theorem encode_decodePsrReg {w : Word} (h : w &&& 0x0FB0F0F0#32 = 0x0120F000#32) :
    encode (decodePsrReg w) = w &&& 0xFFFFF0FF#32 := by
  cases hb : w.getLsbD 22 with
  | false =>
    have row : w &&& 0x0FF0F0F0#32 = 0x0120F000#32 := mask_or_twoPow hb h
    simp only [decodePsrReg, hb, Bool.false_eq_true, if_false, encode, condBits_condOfBits, regBits_regOfBits,
      placed_extract, ← row, ← BitVec.and_or_distrib_left]
    rfl
  | true =>
    have row : w &&& 0x0FF0F0F0#32 = 0x0160F000#32 := mask_or_twoPow hb h
    simp only [decodePsrReg, hb, if_true, encode, condBits_condOfBits, regBits_regOfBits, placed_extract, ← row,
      ← BitVec.and_or_distrib_left]
    rfl

theorem encode_decodeBranch {w : Word} (h : w &&& 0x0E000000#32 = 0x0A000000#32) :
    encode (decodeBranch w) = w &&& 0xFFFFFFFF#32 := by
  cases hb : w.getLsbD 24 with
  | false =>
    have row : w &&& 0x0F000000#32 = 0x0A000000#32 := mask_or_twoPow hb h
    simp only [decodeBranch, hb, Bool.false_eq_true, if_false, encode, condBits_condOfBits, branchImm24_branchOffset,
      placed_extract, ← row, ← BitVec.and_or_distrib_left]
    rfl
  | true =>
    have row : w &&& 0x0F000000#32 = 0x0B000000#32 := mask_or_twoPow hb h
    simp only [decodeBranch, hb, if_true, encode, condBits_condOfBits, branchImm24_branchOffset, placed_extract, ← row,
      ← BitVec.and_or_distrib_left]
    rfl

/-- Every decoded instruction is well formed: a branch by its offset, the others by their operands' types. -/
theorem decodeClass_wellFormed (c : ClassName) (w : Word) : (decodeClass c w).wellFormed = true := by
  cases c with
  | psrImm => simp only [decodeClass, decodePsrImm]; split <;> rfl
  | psrReg => simp only [decodeClass, decodePsrReg]; split <;> rfl
  | branch =>
    obtain ⟨haligned, hrange⟩ := branchOffset_wellFormed (w.extractLsb' 0 24)
    simp only [decodeClass, decodeBranch]
    split <;> simp [Instr.wellFormed, haligned, hrange]
  | movImm | movRegImmShift | movRegRegShift => rfl

/-- Settles O11: the fixed bits of a decoded word come back from its row, each field from its place. -/
theorem decodeDropsOnlyTheIgnoredBits : Obligations.DecodeDropsOnlyTheIgnoredBits := by
  unfold Obligations.DecodeDropsOnlyTheIgnoredBits
  intro w i h
  refine ⟨?_, ?_⟩
  · obtain ⟨c, -, rfl⟩ := Option.map_eq_some_iff.mp h
    exact decodeClass_wellFormed c w
  rcases decode_cases h with ⟨hm, rfl⟩ | ⟨hm, rfl⟩ | ⟨hm, rfl⟩ | ⟨hm, rfl⟩ | ⟨hm, rfl⟩ | ⟨hm, rfl⟩
  · rw [encode_decodePsrImm hm, decodePsrImm]; cases w.getLsbD 22 <;> rfl
  · rw [encode_decodePsrReg hm, decodePsrReg]; cases w.getLsbD 22 <;> rfl
  · exact encode_decodeMovImm hm
  · exact encode_decodeMovRegImm hm
  · exact encode_decodeMovRegReg hm
  · rw [encode_decodeBranch hm, decodeBranch]; cases w.getLsbD 24 <;> rfl

end Sys2Proof
end

section
/-! PROOFS. The bus operations (20_memory.md sections 1 to 3): which accesses succeed, what a write and a cartridge image
leave in the buffers, and the gaps of the map. -/

namespace Sys2Proof.Machine

/-! ## Which accesses succeed (20_memory.md R54 to R58) -/

theorem read_of_owner {m : Memory} {a : Word} {n : Nat} {b : Block} (hn : 1 ≤ n) (h : m.owner a n = some b) :
    m.read a n = .next (bytesAt (b.backing a.toNat) m.cells n) :=
  read_eq_next.mpr ⟨by omega, b, h, rfl⟩

theorem read_of_no_owner {m : Memory} {a : Word} {n : Nat} (hn : 1 ≤ n) (h : m.owner a n = none) :
    m.read a n = .fault (.addressingFault a n) := by
  simp [Memory.read, h, Nat.ne_of_gt hn]

theorem write_of_owner {m : Memory} {a : Word} {bs : List Byte} {b : Block} (hn : 1 ≤ bs.length)
    (h : m.owner a bs.length = some b) :
    m.write a bs = .next { m with cells := setBytes (b.backing a.toNat) bs m.cells } :=
  write_eq_next.mpr ⟨by omega, b, h, rfl⟩

theorem write_of_no_owner {m : Memory} {a : Word} {bs : List Byte} (hn : 1 ≤ bs.length)
    (h : m.owner a bs.length = none) : m.write a bs = .fault (.addressingFault a bs.length) := by
  have hne : bs.length ≠ 0 := Nat.ne_of_gt hn
  simp only [Memory.write, hne, if_false, h]

theorem read_succeeds_iff {m : Memory} {a : Word} {n : Nat} (hn : 1 ≤ n) :
    (∃ bs, m.read a n = .next bs) ↔ ∃ b, m.owner a n = some b := by
  refine ⟨fun ⟨bs, h⟩ => ?_, fun ⟨b, h⟩ => ⟨_, read_of_owner hn h⟩⟩
  obtain ⟨-, b, hb, -⟩ := read_eq_next.mp h
  exact ⟨b, hb⟩

/-- Settles O48: an access succeeds when a block serves it, and `owner_eq_some` says which. -/
theorem accessSucceedsExactlyWithinItsBlock : Obligations.AccessSucceedsExactlyWithinItsBlock := by
  unfold Obligations.AccessSucceedsExactlyWithinItsBlock
  refine fun m a n hn => ⟨(read_succeeds_iff hn).trans (exists_congr fun b => owner_eq_some.trans ?_), ?_, fun bs =>
    length_of_read_eq_next⟩
  · tauto
  · cases h : m.owner a n with
    | none => exact .inr (read_of_no_owner hn h)
    | some b => exact .inl ⟨_, read_of_owner hn h⟩

/-! ## Writing (20_memory.md R58) -/

/-- The owner of an access depends on the installed blocks only, and these on the image's length. -/
theorem owner_withCells (m : Memory) (cs : List Host.Cell) (a : Word) (n : Nat) :
    Memory.owner { m with cells := cs } a n = m.owner a n := rfl

/-- A range that was written reads as the bytes written. -/
theorem read_write_same {m m' : Memory} {a : Word} {bs : List Byte} (hwf : m.wf) (h : m.write a bs = .next m') :
    m'.read a bs.length = .next bs := by
  obtain ⟨hn, b, hb, rfl⟩ := write_eq_next.mp h
  obtain ⟨hrising, -, -⟩ := hwf
  rw [read_of_owner (by omega) ((owner_withCells ..).trans hb), bytesAt_setBytes hrising]

/-- A byte whose place in the buffers is none of those written reads as before. -/
theorem read_write_apart {m : Memory} {x : Word} {k : Nat} {bs : List Byte} (hwf : m.wf)
    (h : ∀ c, m.owner x 1 = some c → ¬(k ≤ c.backing x.toNat ∧ c.backing x.toNat < k + bs.length)) :
    Memory.read { m with cells := setBytes k bs m.cells } x 1 = m.read x 1 := by
  obtain ⟨hrising, -, -⟩ := hwf
  cases hc : m.owner x 1 with
  | none => rw [read_of_no_owner le_rfl hc, read_of_no_owner le_rfl ((owner_withCells ..).trans hc)]
  | some c =>
    rw [read_of_owner le_rfl hc, read_of_owner le_rfl ((owner_withCells ..).trans hc)]
    simp only [bytesAt, byteAt_setBytes hrising, dif_neg (h c hc)]

/-- Settles O50: a write and a read of one range have the same owner. -/
theorem writeStoresItsBytesAndNoOthers : Obligations.WriteStoresItsBytesAndNoOthers := by
  unfold Obligations.WriteStoresItsBytesAndNoOthers
  intro m a bs hwf hne
  have hn : 1 ≤ bs.length := List.length_pos_iff.mpr hne
  cases hb : m.owner a bs.length with
  | none =>
    rw [read_of_no_owner hn hb, write_of_no_owner hn hb]
    exact ⟨fun r h => by cases h; rfl, fun old h => by cases h⟩
  | some b =>
    have hw := write_of_owner hn hb
    refine ⟨fun r h => (by rw [read_of_owner hn hb] at h; cases h), fun old _ => ⟨_, hw, rfl, read_write_same hwf hw, ?_⟩⟩
    rintro _ ⟨⟩ x hx
    exact read_write_apart hwf hx

/-! ## The gaps of the map (20_memory.md section 1) -/

theorem mem_blocks {m : Memory} {b : Block} : b ∈ m.blocks ↔
    b ∈ blocksBelowRom ∨ b ∈ blocksAboveRom ∨ ∃ l, m.romLen = some l ∧ b ∈ romWindows l := by
  cases h : m.romLen with
  | none => simp [Memory.blocks, h]
  | some l => simp [Memory.blocks, h, or_comm]

/-- The addresses that the map of R52 and R53 covers. -/
theorem mapped_ranges {m : Memory} {b : Block} {a : Nat} (hb : b ∈ m.blocks) (hlo : b.base ≤ a) (hhi : a < b.base + b.size) :
    a < 0x00004000 ∨ (0x02000000 ≤ a ∧ a < 0x02040000) ∨ (0x03000000 ≤ a ∧ a < 0x03008000) ∨
    (0x04000000 ≤ a ∧ a < 0x04000400) ∨ (0x05000000 ≤ a ∧ a < 0x05000400) ∨ (0x06000000 ≤ a ∧ a < 0x06018000) ∨
    (0x07000000 ≤ a ∧ a < 0x07000400) ∨ (0x0E000000 ≤ a ∧ a < 0x0E010000) ∨
    ∃ l, m.romLen = some l ∧ ∃ base ∈ [0x08000000, 0x0A000000, 0x0C000000], base ≤ a ∧ a < base + l := by
  rcases mem_blocks.mp hb with hb | hb | ⟨l, hl, hb⟩
  · simp only [blocksBelowRom, List.mem_cons, List.not_mem_nil, or_false] at hb
    rcases hb with rfl | rfl | rfl | rfl | rfl | rfl | rfl <;> simp only at hlo hhi <;> omega
  · simp only [blocksAboveRom, List.mem_cons, List.not_mem_nil, or_false] at hb
    subst hb
    simp only at hlo hhi
    omega
  · simp only [romWindows, List.mem_cons, List.not_mem_nil, or_false] at hb
    iterate 8 right
    rcases hb with rfl | rfl | rfl <;> exact ⟨l, hl, _, by simp, hlo, hhi⟩

/-- An access that begins at an address no installed block covers is refused. -/
theorem read_of_unmapped {m : Memory} {a : Word} {n : Nat} (hn : 1 ≤ n)
    (h : ∀ b ∈ m.blocks, b.base ≤ a.toNat → ¬ a.toNat < b.base + b.size) :
    m.read a n = .fault (.addressingFault a n) := by
  cases ho : m.owner a n with
  | none => exact read_of_no_owner hn ho
  | some b =>
    obtain ⟨hb, hle, hlen, -⟩ := owner_spec ho
    exact absurd (by omega) (h b hb hle)

/-- Settles O53: none of the gaps lies in a range that the map covers. -/
theorem accessesInTheGapsAreRefused : Obligations.AccessesInTheGapsAreRefused := by
  unfold Obligations.AccessesInTheGapsAreRefused
  rintro m a n ⟨-, -, hlen⟩ hn hgap
  refine read_of_unmapped hn fun b hb hlo hhi => ?_
  have hmap := mapped_ranges hb hlo hhi
  cases hr : m.romLen with
  | none =>
    simp only [hr, List.mem_cons, List.not_mem_nil, reduceCtorEq, false_and, exists_false, or_false] at hmap hgap
    omega
  | some l =>
    have hl : l ≤ 0x02000000 := hlen l hr
    simp only [hr, Option.some.injEq, List.mem_cons, List.not_mem_nil, or_false, exists_eq_or_imp, ↓existsAndEq,
      true_and, exists_eq_left', reduceCtorEq, false_and, exists_and_left, false_or] at hmap hgap
    omega

/-- Settles O55: after its reset the bus lists no byte, and without an image the windows' range is not covered. -/
theorem busResetZeroesAndUnmapsTheCartridge : Obligations.BusResetZeroesAndUnmapsTheCartridge := by
  unfold Obligations.BusResetZeroesAndUnmapsTheCartridge
  intro s a n hn
  refine ⟨fun bs => initial_read_eq_zeros, fun hlo hhi => read_of_unmapped hn fun b hb hle hlt => ?_, ?_⟩
  · have hmap := mapped_ranges hb hle hlt
    have hrom : s.resetBus.mem.romLen = none := rfl
    simp only [hrom, reduceCtorEq, false_and, exists_false, or_false] at hmap
    omega
  · simp [State.resetBus, StatusKept, SpsrsKept]

/-! ## The cartridge windows (20_memory.md R53) -/

theorem owner_window {m : Memory} {n k len base : Nat} (hwf : m.wf) (hrom : m.romLen = some n) (hlen : 1 ≤ len)
    (hk : k + len ≤ n) (hbase : base ∈ [0x08000000, 0x0A000000, 0x0C000000]) :
    m.owner (BitVec.ofNat 32 (base + k)) len = some ⟨.cartridgeRom, base, n⟩ := by
  obtain ⟨-, -, hmax⟩ := hwf
  have hn : n ≤ 0x02000000 := hmax n hrom
  have hbases : base = 0x08000000 ∨ base = 0x0A000000 ∨ base = 0x0C000000 := by simpa using hbase
  have ha : (BitVec.ofNat 32 (base + k)).toNat = base + k := by rw [BitVec.toNat_ofNat]; omega
  refine owner_eq_some.mpr ⟨mem_blocks.mpr (.inr (.inr ⟨n, hrom, by simpa [romWindows] using hbases⟩)), ?_, ?_, ?_⟩
  · simp only [ha]; omega
  · simp only [ha]; omega
  intro c hc hle
  rw [ha] at hle
  rcases mem_blocks.mp hc with hc | hc | ⟨l, -, hc⟩
  · simp only [blocksBelowRom, List.mem_cons, List.not_mem_nil, or_false] at hc
    rcases hc with rfl | rfl | rfl | rfl | rfl | rfl | rfl <;> simp only <;> omega
  · simp only [blocksAboveRom, List.mem_cons, List.not_mem_nil, or_false] at hc
    subst hc
    simp only at hle
    omega
  · simp only [romWindows, List.mem_cons, List.not_mem_nil, or_false] at hc
    rcases hc with rfl | rfl | rfl <;> simp only at hle ⊢ <;> omega

section Window

variable {m : Memory} {n k base : Nat} (hwf : m.wf) (hrom : m.romLen = some n)
  (hbase : base ∈ [0x08000000, 0x0A000000, 0x0C000000])
include hwf hrom hbase

/-- A byte of a window is in the one buffer, at its offset from the window's base. -/
theorem window_backing (hk : k < n) :
    Block.backing ⟨.cartridgeRom, base, n⟩ (BitVec.ofNat 32 (base + k)).toNat = romBase + k := by
  obtain ⟨-, -, hmax⟩ := hwf
  have hn : n ≤ 0x02000000 := hmax n hrom
  have hbases : base = 0x08000000 ∨ base = 0x0A000000 ∨ base = 0x0C000000 := by simpa using hbase
  have ha : (BitVec.ofNat 32 (base + k)).toNat = base + k := by rw [BitVec.toNat_ofNat]; omega
  simp [Block.backing, ha]

theorem read_window {len : Nat} (hlen : 1 ≤ len) (hk : k + len ≤ n) :
    m.read (BitVec.ofNat 32 (base + k)) len = .next (bytesAt (romBase + k) m.cells len) := by
  rw [read_of_owner hlen (owner_window hwf hrom hlen hk hbase), window_backing hwf hrom hbase (by omega)]

theorem write_window {data : List Byte} (hlen : 1 ≤ data.length) (hk : k + data.length ≤ n) :
    m.write (BitVec.ofNat 32 (base + k)) data = .next { m with cells := setBytes (romBase + k) data m.cells } := by
  rw [write_of_owner hlen (owner_window hwf hrom hlen hk hbase), window_backing hwf hrom hbase (by omega)]

end Window

/-- Settles O51: at one offset the three windows name one place of the buffer. -/
theorem cartridgeWindowsShareOneBuffer : Obligations.CartridgeWindowsShareOneBuffer := by
  unfold Obligations.CartridgeWindowsShareOneBuffer
  intro m n k len base hwf hrom hlen hk hbase
  have ⟨hrising, _, _⟩ := hwf
  refine ⟨⟨_, read_window hwf hrom hbase hlen hk, read_window hwf hrom (by simp) hlen hk⟩, ?_⟩
  rintro data rfl
  have hw := write_window hwf hrom hbase hlen hk
  have hread : ∀ b ∈ [0x08000000, 0x0A000000, 0x0C000000],
      Memory.read { m with cells := setBytes (romBase + k) data m.cells } (BitVec.ofNat 32 (b + k)) data.length =
        .next data := fun b hb => by
    rw [read_window (wf_write hwf hw) hrom hb hlen hk, bytesAt_setBytes hrising]
  exact ⟨_, hw, hread _ (by simp), hread _ (by simp), hread _ (by simp)⟩

/-! ## A cartridge image (20_memory.md R59) -/

/-- The memory with a cartridge image in place of an earlier one. -/
def Memory.withImage (m : Memory) (data : List Byte) : Memory where
  romLen := some data.length
  cells := m.cells.filter (fun c => decide (c.1 < romBase)) ++ cellsOf romBase data
    ++ m.cells.filter (fun c => decide (romEnd ≤ c.1))

theorem loadCartridge_of_le {m : Memory} {data : List Byte} (h : data.length ≤ 0x02000000) :
    m.loadCartridge data = .next (m.withImage data) :=
  loadCartridge_eq_next.mpr ⟨h, rfl⟩

theorem loadCartridge_of_gt {m : Memory} {data : List Byte} (h : 0x02000000 < data.length) :
    m.loadCartridge data = .refused (.imageTooLong data.length) :=
  if_neg (Nat.not_le.mpr h)

theorem lt_of_mem_below {cs : List Host.Cell} {c : Host.Cell} (h : c ∈ cs.filter (fun c => decide (c.1 < romBase))) :
    c.1 < romBase :=
  of_decide_eq_true (List.mem_filter.mp h).2

theorem le_of_mem_above {cs : List Host.Cell} {c : Host.Cell} (h : c ∈ cs.filter (fun c => decide (romEnd ≤ c.1))) :
    romEnd ≤ c.1 :=
  of_decide_eq_true (List.mem_filter.mp h).2

theorem byteAt_withImage_inside {m : Memory} {data : List Byte} {k : Nat} (h : data.length ≤ 0x02000000)
    (hk : k < data.length) : byteAt (romBase + k) (m.withImage data).cells = data[k] := by
  have hend : romEnd = romBase + 0x02000000 := rfl
  rw [Memory.withImage, byteAt_append_left fun c hc => ?above, byteAt_append_right fun c hc => ?below, byteAt_cellsOf,
    dif_pos (by omega)]
  case above => have := le_of_mem_above hc; omega
  case below => have := lt_of_mem_below hc; omega
  simp

theorem byteAt_withImage_outside {m : Memory} {data : List Byte} {j : Nat} (h : data.length ≤ 0x02000000)
    (hj : j < romBase ∨ romEnd ≤ j) : byteAt j (m.withImage data).cells = byteAt j m.cells := by
  have hend : romEnd = romBase + 0x02000000 := rfl
  have inside : ∀ c ∈ cellsOf romBase data, c.1 ≠ j := fun c hc => by have := mem_cellsOf hc; omega
  rcases hj with hj | hj
  · rw [Memory.withImage, byteAt_append_left fun c hc => ?above, byteAt_append_left inside,
      byteAt_filter j (fun a => decide (a < romBase)), if_pos (decide_eq_true hj)]
    case above => have := le_of_mem_above hc; omega
  · rw [Memory.withImage, byteAt_append_right fun c hc => ?below, byteAt_filter j (fun a => decide (romEnd ≤ a)),
      if_pos (decide_eq_true hj)]
    case below =>
      rcases List.mem_append.mp hc with hc | hc
      · have := lt_of_mem_below hc; omega
      · exact inside c hc

theorem wf_withImage {m : Memory} {data : List Byte} (hwf : m.wf) (h : data.length ≤ 0x02000000) :
    (m.withImage data).wf :=
  wf_loadCartridge hwf (loadCartridge_of_le h)

/-- Every window shows the image from its base on. -/
theorem read_withImage {m : Memory} {data : List Byte} {k len base : Nat} (hwf : m.wf) (h : data.length ≤ 0x02000000)
    (hbase : base ∈ [0x08000000, 0x0A000000, 0x0C000000]) (hlen : 1 ≤ len) (hk : k + len ≤ data.length) :
    (m.withImage data).read (BitVec.ofNat 32 (base + k)) len = .next ((data.drop k).take len) := by
  rw [read_window (wf_withImage hwf h) rfl hbase hlen hk]
  refine congrArg _ (List.ext_getElem (by simp; omega) fun i h₁ h₂ => ?_)
  have hi : i < len := by simpa using h₁
  rw [bytesAt_getElem, Nat.add_assoc, byteAt_withImage_inside h (by omega)]
  simp

theorem romWindows_base {n : Nat} {b : Block} (h : b ∈ romWindows n) : 0x08000000 ≤ b.base ∧ b.base ≤ 0x0C000000 := by
  simp only [romWindows, List.mem_cons, List.not_mem_nil, or_false] at h
  rcases h with rfl | rfl | rfl <;> simp

/-- Outside the windows' range a default block serves an access, whatever image is loaded. -/
theorem owner_outside_rom {m : Memory} {a : Word} {len : Nat} {b : Block}
    (ha : a.toNat < 0x08000000 ∨ 0x0E000000 ≤ a.toNat) : m.owner a len = some b ↔
      b ∈ blocksBelowRom ++ blocksAboveRom ∧ b.base ≤ a.toNat ∧ a.toNat - b.base + len ≤ b.size ∧
        ∀ c ∈ blocksBelowRom ++ blocksAboveRom, c.base ≤ a.toNat → c.base ≤ b.base := by
  have hdefault : ∀ c ∈ blocksBelowRom ++ blocksAboveRom, c ∈ m.blocks := fun c hc =>
    mem_blocks.mpr (by rcases List.mem_append.mp hc with hc | hc <;> simp [hc])
  have hwindow : ∀ c ∈ m.blocks, c ∈ blocksBelowRom ++ blocksAboveRom ∨ 0x08000000 ≤ c.base ∧ c.base ≤ 0x0C000000 :=
    fun c hc => by
      rcases mem_blocks.mp hc with hc | hc | ⟨l, -, hc⟩
      · simp [hc]
      · simp [hc]
      · exact .inr (romWindows_base hc)
  have hram : (⟨.cartridgeRam, 0x0E000000, 0x00010000⟩ : Block) ∈ blocksBelowRom ++ blocksAboveRom := by decide
  rw [owner_eq_some]
  constructor
  · rintro ⟨hb, hle, hlen, hmax⟩
    refine ⟨(hwindow b hb).resolve_right fun hw => ?_, hle, hlen, fun c hc => hmax c (hdefault c hc)⟩
    have := hmax _ (hdefault _ hram)
    simp only at this
    omega
  · rintro ⟨hb, hle, hlen, hmax⟩
    refine ⟨hdefault b hb, hle, hlen, fun c hc hca => (hwindow c hc).elim (hmax c · hca) fun hw => ?_⟩
    have := hmax _ hram
    simp only at this
    omega

/-- A default block's bytes are listed under their own addresses, outside those of the cartridge buffer. -/
theorem default_block_outside_rom : ∀ b ∈ blocksBelowRom ++ blocksAboveRom,
    b.name ≠ .cartridgeRom ∧ (b.base + b.size ≤ romBase ∨ romEnd ≤ b.base) := by
  decide

theorem backing_of_default {b : Block} (h : b.name ≠ .cartridgeRom) (a : Nat) : b.backing a = a := by
  unfold Block.backing
  split <;> simp_all

/-- Loading an image leaves every access outside the windows' range as it was. -/
theorem read_withImage_outside {m : Memory} {data : List Byte} {a : Word} (n : Nat) (h : data.length ≤ 0x02000000)
    (ha : a.toNat < 0x08000000 ∨ 0x0E000000 ≤ a.toNat) : (m.withImage data).read a n = m.read a n := by
  have howner : (m.withImage data).owner a n = m.owner a n :=
    Option.ext fun b => by rw [owner_outside_rom ha, owner_outside_rom ha]
  unfold Memory.read
  rw [howner]
  cases ho : m.owner a n with
  | none => rfl
  | some b =>
    obtain ⟨hb, hle, hlen, -⟩ := (owner_outside_rom ha).mp ho
    obtain ⟨hname, hout⟩ := default_block_outside_rom b hb
    have hbytes : bytesAt a.toNat (m.withImage data).cells n = bytesAt a.toNat m.cells n :=
      bytesAt_congr fun i hi => byteAt_withImage_outside h (by omega)
    simp only [backing_of_default hname, hbytes]

/-- Settles O52: the image is read in each window, past it no block covers an address, and outside nothing changed. -/
theorem loadCartridgeReplacesTheBuffer : Obligations.LoadCartridgeReplacesTheBuffer := by
  unfold Obligations.LoadCartridgeReplacesTheBuffer
  intro m data hwf hlen
  refine ⟨_, loadCartridge_of_le hlen, rfl, fun base hbase => ⟨fun hne => ?_, fun k hk hkmax n hn => ?_⟩, fun a n ha =>
    read_withImage_outside n hlen ha⟩
  · have hpos : 1 ≤ data.length := List.length_pos_iff.mpr hne
    have hread := read_withImage (k := 0) hwf hlen hbase hpos (by omega)
    simpa using hread
  · refine accessesInTheGapsAreRefused _ _ n (wf_withImage hwf hlen) hn ?_
    have hbases : base = 0x08000000 ∨ base = 0x0A000000 ∨ base = 0x0C000000 := by simpa using hbase
    have ha : (BitVec.ofNat 32 (base + k)).toNat = base + k := by rw [BitVec.toNat_ofNat]; omega
    rw [ha]
    iterate 9 right
    exact ⟨data.length, base, rfl, hbase, by omega, by omega⟩

/-- Settles O3: `load` is the cartridge load followed by a write of the pc. -/
theorem loadInstallsTheImageAndSetsOnlyThePc : Obligations.LoadInstallsTheImageAndSetsOnlyThePc := by
  unfold Obligations.LoadInstallsTheImageAndSetsOnlyThePc
  intro s image hwf hlen
  refine ⟨_, load_of_loadCartridge (loadCartridge_of_le hlen), setPc_pc .., by simp, by simp [StatusKept, SpsrsKept],
    fun c hc => by simp [setPc_readCell, hc], by simp [Memory.withImage], fun k hk => ?_, fun a ha => ?_⟩
  · have hbyte : (image.drop k).take 1 = [image[k]] :=
      List.take_one_drop_eq_of_lt_length hk
    have hread (base : Nat) (hbase : base ∈ [0x08000000, 0x0A000000, 0x0C000000]) :=
      hbyte ▸ read_withImage hwf hlen hbase le_rfl (Nat.succ_le_of_lt hk)
    simp only [setPc_mem, withMem_mem]
    exact ⟨hread _ (by simp), hread _ (by simp), hread _ (by simp)⟩
  · simp only [setPc_mem, withMem_mem]
    exact read_withImage_outside 1 hlen ha

/-- Settles O54: the two inputs are refused before anything is written. -/
theorem inputsOutsideTheContractAreRefused : Obligations.InputsOutsideTheContractAreRefused := by
  unfold Obligations.InputsOutsideTheContractAreRefused
  refine fun s a image => ⟨rfl, rfl, fun hlen => ?_⟩
  simp only [performOp, State.load, loadCartridge_of_gt hlen, command, busCommand, and_self]

end Sys2Proof.Machine
end

section
/-! PROOFS. The operands, the conditions and the flag rule (40_step_and_condition.md section 2, 42_move.md section 3,
43_psr_transfer.md section 1). -/

namespace Sys2Proof.Machine

/-! ## Conditions (40_step_and_condition.md R105) -/

/-- A condition is decided by bits 31:28 of CPSR. -/
theorem conditionPassed_eq_of_flags (c : Cond) {p q : Word} (h : p.extractLsb' 28 4 = q.extractLsb' 28 4) :
    conditionPassed c p = conditionPassed c q := by
  have flag (k : Nat) (hk : k < 4) : p.getLsbD (28 + k) = q.getLsbD (28 + k) := by
    simpa [hk] using congrArg (·.getLsbD k) h
  have hN : flagN p = flagN q := flag 3 (by decide)
  have hZ : flagZ p = flagZ q := flag 2 (by decide)
  have hC : flagC p = flagC q := flag 1 (by decide)
  have hV : flagV p = flagV q := flag 0 (by decide)
  cases c <;> simp only [conditionPassed, hN, hZ, hC, hV]

/-- Settles O22: a condition looks at bits 31:28 only, and each of their sixteen values is evaluated. -/
theorem conditionsPassForTheListedFlags : Obligations.ConditionsPassForTheListedFlags := by
  unfold Obligations.ConditionsPassForTheListedFlags
  intro c cpsr
  have hflags : cpsr.extractLsb' 28 4 = (placed (cpsr.extractLsb' 28 4) 28).extractLsb' 28 4 :=
    (extract_placed_same _ (by decide)).symm
  rw [conditionPassed_eq_of_flags c hflags]
  generalize cpsr.extractLsb' 28 4 = flags
  revert flags
  cases c <;> decide

/-! ## The barrel shifter (42_move.md R133) -/

theorem rrx_toNat (v : Word) (c : Bool) : (bitAt c 31 ||| v >>> 1).toNat = (if c then 2 ^ 31 else 0) + v.toNat / 2 := by
  have hlt : v.toNat / 2 < 2 ^ 31 := by have := v.isLt; omega
  cases c with
  | false => simp [bitAt, Nat.shiftRight_eq_div_pow]
  | true => simpa [bitAt, Nat.shiftRight_eq_div_pow] using (Nat.two_pow_add_eq_or_of_lt hlt 1).symm

theorem shiftLeft_toNat (v : Word) (n : Nat) : (v <<< n).toNat = v.toNat * 2 ^ n % 2 ^ 32 := by
  rw [BitVec.toNat_shiftLeft, Nat.shiftLeft_eq]

theorem shiftRight_toNat (v : Word) (n : Nat) : (v >>> n).toNat = v.toNat / 2 ^ n := by
  rw [BitVec.toNat_ushiftRight, Nat.shiftRight_eq_div_pow]

/-- An arithmetic right shift divides the signed value, rounding down. -/
theorem asr32_toInt (v : Word) (n : Nat) : (asr32 v n).toInt = v.toInt / 2 ^ n := by
  rw [asr32, BitVec.toInt_sshiftRight, Int.shiftRight_eq_div_pow]
  norm_cast

theorem shiftImm_of_ne_zero {amount : BitVec 5} (h : amount ≠ 0#5) (v : Word) (c : Bool) :
    shiftImm v .lsl amount c = (v <<< amount.toNat, v.getLsbD (32 - amount.toNat)) ∧
    shiftImm v .lsr amount c = (v >>> amount.toNat, v.getLsbD (amount.toNat - 1)) ∧
    shiftImm v .asr amount c = (asr32 v amount.toNat, v.getLsbD (amount.toNat - 1)) ∧
    shiftImm v .ror amount c = (v.rotateRight amount.toNat, v.getLsbD (amount.toNat - 1)) := by
  have hne : amount.toNat ≠ 0 := fun h0 => h (BitVec.eq_of_toNat_eq h0)
  simp only [shiftImm, hne, if_false, ror32_eq_rotateRight, and_self]

/-- The rows of the shifter's table for an amount from 1 to 31, in terms of arithmetic. -/
theorem shiftImm_arith {amount : BitVec 5} (h : amount ≠ 0#5) (v : Word) (c : Bool) :
    (shiftImm v .lsl amount c).1.toNat = v.toNat * 2 ^ amount.toNat % 2 ^ 32 ∧
    (shiftImm v .lsl amount c).2 = v.getLsbD (32 - amount.toNat) ∧
    (shiftImm v .lsr amount c).1.toNat = v.toNat / 2 ^ amount.toNat ∧
    (shiftImm v .lsr amount c).2 = v.getLsbD (amount.toNat - 1) ∧
    (shiftImm v .asr amount c).1.toInt = v.toInt / 2 ^ amount.toNat ∧
    (shiftImm v .asr amount c).2 = v.getLsbD (amount.toNat - 1) ∧
    shiftImm v .ror amount c = (v.rotateRight amount.toNat, v.getLsbD (amount.toNat - 1)) := by
  obtain ⟨hlsl, hlsr, hasr, hror⟩ := shiftImm_of_ne_zero h v c
  rw [hlsl, hlsr, hasr]
  exact ⟨shiftLeft_toNat .., rfl, shiftRight_toNat .., rfl, asr32_toInt .., rfl, hror⟩

/-- Settles O31: an amount of 0 is looked up, the others are arithmetic. -/
theorem shiftByImmediateTable : Obligations.ShiftByImmediateTable := by
  unfold Obligations.ShiftByImmediateTable
  refine fun rm amount c => ⟨?_, fun h => shiftImm_arith h rm c⟩
  rintro rfl
  exact ⟨rfl, rfl, rfl, rrx_toNat rm c, rfl⟩

/-- From 1 to 31 the two forms of the shifter agree. -/
theorem shiftReg_eq_shiftImm {amount : BitVec 8} (h₁ : 1 ≤ amount.toNat) (h₂ : amount.toNat ≤ 31) (v : Word)
    (type : ShiftType) (c : Bool) : shiftReg v type amount c = shiftImm v type (amount.setWidth 5) c := by
  have hne : amount.toNat ≠ 0 := by omega
  have hmod : amount.toNat % 32 = amount.toNat := Nat.mod_eq_of_lt (by omega)
  have hw : (amount.setWidth 5).toNat = amount.toNat := by simp [hmod]
  cases type <;> simp only [shiftReg, shiftImm, hw, hne, h₂, hmod, if_true, if_false]

/-- Settles O32: from 1 to 31 it is `ShiftImm`; from 32 on each row of the table is looked up. -/
theorem shiftByRegisterTable : Obligations.ShiftByRegisterTable := by
  unfold Obligations.ShiftByRegisterTable
  intro rm amount c
  refine ⟨?_, fun h₁ h₂ => ?_, fun h => ?_, fun h => ?_, fun h => ?_⟩
  · rintro rfl type
    rfl
  · have hw : (amount.setWidth 5).toNat = amount.toNat := by
      rw [BitVec.toNat_setWidth]; exact Nat.mod_eq_of_lt (by omega)
    have hne : amount.setWidth 5 ≠ 0#5 := fun h0 => by
      have : amount.toNat = 0 := hw ▸ congrArg BitVec.toNat h0
      omega
    simp only [shiftReg_eq_shiftImm h₁ h₂]
    exact hw ▸ shiftImm_arith hne rm c
  · simp [shiftReg, h]
  · have h₀ : amount.toNat ≠ 0 := by omega
    have h₁ : ¬ amount.toNat ≤ 31 := by omega
    have h₂ : amount.toNat ≠ 32 := by omega
    simp only [shiftReg, h₀, h₁, h₂, if_false, and_self]
  · have h₀ : amount.toNat ≠ 0 := by omega
    have h₁ : ¬ amount.toNat ≤ 31 := by omega
    refine ⟨by simp only [shiftReg, h₀, h₁, if_false], fun hz => ?_, fun hz => ?_⟩
    · simp only [shiftReg, h₀, hz, if_true, if_false]
    · simp only [shiftReg, h₀, hz, if_false, ror32_eq_rotateRight]

/-! ## The byte mask (43_psr_transfer.md R154) and the flag rule of a Move (42_move.md R134) -/

/-- Bit `k` of the byte mask is the field-mask bit of its byte. -/
theorem byteMask_getLsbD : ∀ (f : BitVec 4) (k : Fin 32), (byteMask f).getLsbD k = f.getLsbD (k / 8) := by
  decide

/-- Settles O33: below 32 the mask selects the operand's bit or the old one. -/
theorem fieldMaskSelectsWholeBytes : Obligations.FieldMaskSelectsWholeBytes := by
  unfold Obligations.FieldMaskSelectsWholeBytes
  intro f psr op k hk
  have hmask : (byteMask f).getLsbD k = f.getLsbD (k / 8) := byteMask_getLsbD f ⟨k, hk⟩
  simp only [maskedWrite, BitVec.getLsbD_or, BitVec.getLsbD_and, BitVec.getLsbD_not, hk, hmask]
  cases f.getLsbD (k / 8) <;> simp

/-- With field-mask bit 3 clear the top byte, the flags in it, is kept. -/
theorem maskedWrite_top {f : BitVec 4} (h : f.getLsbD 3 = false) (psr op : Word) :
    (maskedWrite f psr op).extractLsb' 24 8 = psr.extractLsb' 24 8 := by
  rw [field_eq_iff]
  intro k
  have hbyte : (24 + k.val) / 8 = 3 := by omega
  rw [fieldMaskSelectsWholeBytes f psr op _ (by omega), hbyte, h]
  simp

theorem bitAt_getLsbD (b : Bool) {k j : Nat} (hk : k < 32) : (bitAt b k).getLsbD j = (b && decide (j = k)) := by
  cases b with
  | false => simp [bitAt]
  | true =>
    have hone : (1#32 <<< k) = BitVec.twoPow 32 k := rfl
    rw [bitAt, if_pos rfl, hone, BitVec.getLsbD_twoPow]
    simp [hk, eq_comm]

theorem moveFlags_getLsbD (v : Word) (carry : Bool) (cpsr : Word) (j : Nat) : (moveFlags v carry cpsr).getLsbD j =
    (v.getLsbD 31 && decide (j = 31) || decide (v = 0#32) && decide (j = 30) || carry && decide (j = 29) ||
      cpsr.getLsbD j && (0x1FFFFFFF#32).getLsbD j) := by
  simp only [moveFlags, BitVec.getLsbD_or, BitVec.getLsbD_and, bitAt_getLsbD, Nat.reduceLT]
  rfl

/-- N, Z and C after a Move with S = 1; V and bits 27:0 are kept. -/
theorem moveFlags_bits (v : Word) (carry : Bool) (cpsr : Word) :
    (moveFlags v carry cpsr).getLsbD 31 = v.getLsbD 31 ∧ (moveFlags v carry cpsr).getLsbD 30 = decide (v = 0#32) ∧
    (moveFlags v carry cpsr).getLsbD 29 = carry ∧ (moveFlags v carry cpsr).extractLsb' 0 29 = cpsr.extractLsb' 0 29 := by
  refine ⟨by rw [moveFlags_getLsbD]; simp, by rw [moveFlags_getLsbD]; simp, by rw [moveFlags_getLsbD]; simp, ?_⟩
  have kept : ∀ k : Fin 29, (0x1FFFFFFF#32).getLsbD k = true := by decide
  rw [field_eq_iff]
  intro k
  have h₁ : k.val ≠ 31 := by omega
  have h₂ : k.val ≠ 30 := by omega
  have h₃ : k.val ≠ 29 := by omega
  rw [moveFlags_getLsbD]
  simp [kept, h₁, h₂, h₃]

end Sys2Proof.Machine
end

section
/-! PROOFS. The meanings of the instructions (41_branch.md, 42_move.md, 43_psr_transfer.md): the result of each and its
frame. -/

namespace Sys2Proof.Machine

/-! ## Frames: what each write of the state leaves -/

theorem onlyCells_of {cells : List PhysCell} {s t : State} (hmode : t.mode = s.mode) (hmem : t.mem = s.mem)
    (hcells : ∀ c, c ∉ cells → t.readCell c = s.readCell c) : OnlyCells cells s t :=
  ⟨hmode, hmem, fun _ => by rw [hmem], hcells⟩

theorem set_onlyCells (s : State) (i : Reg) (v : Word) : OnlyCells [phys s.mode i] s (s.set i v) :=
  onlyCells_of (set_mode ..) (set_mem ..) fun c hc => by rw [set_readCell, if_neg (by simpa using hc)]

theorem set_statusKept (s : State) (i : Reg) (v : Word) : StatusKept s (s.set i v) :=
  ⟨set_cpsr .., fun _ => set_readSpsr ..⟩

theorem setPc_onlyCells (s : State) (v : Word) : OnlyCells [.s 7] s (s.setPc v) :=
  onlyCells_of (setPc_mode ..) (setPc_mem ..) fun c hc => by rw [setPc_readCell, if_neg (by simpa using hc)]

theorem setPc_statusKept (s : State) (v : Word) : StatusKept s (s.setPc v) :=
  ⟨setPc_cpsr .., fun _ => setPc_readSpsr ..⟩

theorem withCpsr_onlyCells (s : State) (v : Word) : OnlyCells [] s (s.withCpsr v) :=
  onlyCells_of rfl rfl fun _ _ => withCpsr_readCell ..

/-- A frame, then the advance of the pc. -/
theorem OnlyCells.advance {s t : State} (h : OnlyCells [] s t) : OnlyCells [.s 7] s t.advance := by
  obtain ⟨hmode, hmem, -, hcells⟩ := h
  refine onlyCells_of (by simp [hmode]) (by simp [hmem]) fun c hc => ?_
  rw [advance_readCell, if_neg (by simpa using hc), hcells c (by simp)]

/-- Settles O5: by the rules for `set`. -/
theorem setWritesExactlyItsCell : Obligations.SetWritesExactlyItsCell := by
  unfold Obligations.SetWritesExactlyItsCell
  exact fun s i v => ⟨set_get_same .., by rw [set_readCell, if_pos rfl], set_onlyCells .., set_statusKept ..⟩

/-- Settles O7: each of the two writes one field of the state, and not the same one. -/
theorem modeAndCpsrAreIndependent : Obligations.ModeAndCpsrAreIndependent := by
  unfold Obligations.ModeAndCpsrAreIndependent
  exact fun s m v => ⟨rfl, rfl, setMode_readCell s m, ⟨rfl, fun _ => rfl⟩, rfl, rfl, rfl, withCpsr_onlyCells s v,
    fun _ => rfl⟩

/-- Settles O2: each reset puts constants in place of its component, whatever was there. -/
theorem resetsAreIdempotentAndCommute : Obligations.ResetsAreIdempotentAndCommute := by
  unfold Obligations.ResetsAreIdempotentAndCommute
  exact fun s => ⟨rfl, rfl, rfl, rfl, rfl⟩

/-- Settles O23: a skipped instruction is `advance`, whichever it is. -/
theorem skippedInstructionOnlyAdvancesThePc : Obligations.SkippedInstructionOnlyAdvancesThePc := by
  unfold Obligations.SkippedInstructionOnlyAdvancesThePc
  exact fun i s h => ⟨_, exec_skipped h, advance_pc s, setPc_onlyCells .., setPc_statusKept ..⟩

theorem exec_of_effect {i : Instr} {s : State} {o : Host.Outcome State Fault Refusal}
    (hc : conditionPassed i.cond s.cpsr = true) (h : effect i s = o) : exec i s = o :=
  (exec_passed hc).trans h

/-! ## Branches (41_branch.md) -/

/-- Bits 27:24 of a branch word are the class bits and the link bit. -/
theorem branch_bits (w : Word) :
    (w.extractLsb' 24 4 = 0b1010#4 ↔ w.extractLsb' 25 3 = 0b101#3 ∧ w.getLsbD 24 = false) ∧
    (w.extractLsb' 24 4 = 0b1011#4 ↔ w.extractLsb' 25 3 = 0b101#3 ∧ w.getLsbD 24 = true) := by
  constructor <;> simp [field_eq_iff, Fin.forall_fin_succ] <;> tauto

theorem decode_b {w : Word} (h : w.extractLsb' 24 4 = 0b1010#4) :
    decode w = some (.b (condOfBits (w.extractLsb' 28 4)) (branchOffset (w.extractLsb' 0 24))) := by
  obtain ⟨hclass, hlink⟩ := (branch_bits w).1.mp h
  rw [decode_of_branch ((branch_mask_iff w).mpr hclass), decodeBranch, hlink]
  rfl

theorem decode_bl {w : Word} (h : w.extractLsb' 24 4 = 0b1011#4) :
    decode w = some (.bl (condOfBits (w.extractLsb' 28 4)) (branchOffset (w.extractLsb' 0 24))) := by
  obtain ⟨hclass, hlink⟩ := (branch_bits w).2.mp h
  rw [decode_of_branch ((branch_mask_iff w).mpr hclass), decodeBranch, hlink]
  rfl

/-- Settles O24: `B` is one write of the pc. -/
theorem branchWritesOnlyThePc : Obligations.BranchWritesOnlyThePc := by
  unfold Obligations.BranchWritesOnlyThePc
  exact ⟨fun c o s h => ⟨_, exec_passed h, setPc_pc .., setPc_onlyCells .., setPc_statusKept ..⟩, fun w => decode_b⟩

/-- The two writes of `BL`: r14 of the mode and the pc. -/
theorem link_onlyCells (s : State) (v w : Word) : OnlyCells [phys s.mode 14, .s 7] s ((s.set 14 v).setPc w) := by
  refine onlyCells_of (by simp) (by simp) fun c hc => ?_
  simp only [List.mem_cons, List.not_mem_nil, or_false, not_or] at hc
  obtain ⟨hlink, hpc⟩ := hc
  rw [setPc_readCell, if_neg hpc, set_readCell, if_neg hlink]

theorem link_get (s : State) (v w : Word) : ((s.set 14 v).setPc w).get 14 = v := by
  rw [setPc_get, if_neg (by decide), set_get_same]

/-- Settles O25: the link is written before the pc, and r14 is never the pc's cell. -/
theorem branchLinkWritesItsOwnAddressAndThePc : Obligations.BranchLinkWritesItsOwnAddressAndThePc := by
  unfold Obligations.BranchLinkWritesItsOwnAddressAndThePc
  refine ⟨fun c o s h => ⟨_, exec_passed h, link_get .., setPc_pc .., ?_, link_onlyCells .., ?_⟩, fun w => decode_bl⟩
  · have hlink := link_get s s.pc (s.pc + o)
    rw [State.get, setPc_mode, set_mode] at hlink
    cases hm : s.mode <;> rw [hm] at hlink <;> exact hlink
  · simp [StatusKept, SpsrsKept]

/-! ## Moves (42_move.md) -/

theorem moveResult_onlyCells (f : Bool) (rd : Reg) (vc : Word × Bool) (s : State) :
    OnlyCells [phys s.mode rd, .s 7] s (moveResult f rd vc s) := by
  refine onlyCells_of (moveResult_mode ..) (moveResult_mem ..) fun c hc => ?_
  simp only [List.mem_cons, List.not_mem_nil, or_false, not_or] at hc
  obtain ⟨hrd, hpc⟩ := hc
  rw [moveResult_readCell, if_neg hrd, if_neg hpc]

/-- What the writes of a Move leave, whichever its operand: the value, the pc, the flags and the frame. -/
theorem moveResult_spec {f : Bool} {rd : Reg} {v : Word} {carry : Bool} {s t : State}
    (ht : t = moveResult f rd (v, carry) s) :
    t.get rd = v ∧ (rd ≠ 15 → t.pc = s.pc + 4#32) ∧ (f = false → t.cpsr = s.cpsr) ∧
    (f = true → t.cpsr.getLsbD 31 = v.getLsbD 31 ∧ t.cpsr.getLsbD 30 = decide (v = 0#32) ∧
      t.cpsr.getLsbD 29 = carry ∧ t.cpsr.extractLsb' 0 29 = s.cpsr.extractLsb' 0 29) ∧
    OnlyCells [phys s.mode rd, .s 7] s t ∧ SpsrsKept s t := by
  subst ht
  refine ⟨moveResult_get_rd .., fun hrd => ?_, fun hf => ?_, fun hf => ?_, moveResult_onlyCells ..,
    fun _ => moveResult_readSpsr ..⟩
  · rw [moveResult_pc, if_neg hrd]
  · simp [moveResult_cpsr, hf]
  · rw [moveResult_cpsr, if_pos hf]
    exact moveFlags_bits ..

/-- r15 reads as the pc, so telling it apart reads the same (42_move.md R137). -/
theorem ite_pc_get (s : State) (i : Reg) : (if i = 15 then s.pc else s.get i) = s.get i := by
  split
  · next h => rw [h]; rfl
  · rfl

/-- Settles O27: the operand is the rotation, and `moveResult_spec` says the rest. -/
theorem moveImmediateResult : Obligations.MoveImmediateResult := by
  unfold Obligations.MoveImmediateResult
  intro c f rd rot imm8 s hc hn
  refine ⟨_, _, exec_of_effect hc (move_next.mpr ⟨hn, rfl⟩), rotatedImm_eq_rotateRight rot imm8, ?_⟩
  exact moveResult_spec (v := rotatedImm rot imm8) rfl

/-- Settles O28: the operand is read before `moveResult` writes. -/
theorem moveShiftedByImmediateResult : Obligations.MoveShiftedByImmediateResult := by
  unfold Obligations.MoveShiftedByImmediateResult
  intro c f rd rm type amount s hc hn
  refine ⟨_, _, _, exec_of_effect hc (move_next.mpr ⟨hn, rfl⟩), ?_, moveResult_spec rfl⟩
  rw [ite_pc_get]
  rfl

/-- Settles O29: the operands are read before `moveResult` writes. -/
theorem moveShiftedByRegisterResult : Obligations.MoveShiftedByRegisterResult := by
  unfold Obligations.MoveShiftedByRegisterResult
  intro c f rd rm rs type s hc hn
  refine ⟨_, _, _, exec_of_effect hc (move_next.mpr ⟨hn, rfl⟩), ?_, moveResult_spec rfl⟩
  have low (v : Word) : BitVec.ofNat 8 (v.toNat % 256) = v.extractLsb' 0 8 := by
    apply BitVec.eq_of_toNat_eq; simp
  rw [ite_pc_get, ite_pc_get, low]
  rfl

/-- Settles O30: `move` reports before it writes. -/
theorem flagSettingMoveToPcReportsNotImplemented : Obligations.FlagSettingMoveToPcReportsNotImplemented := by
  unfold Obligations.FlagSettingMoveToPcReportsNotImplemented
  intro c rot imm8 rm rs type amount s hc
  have report (op : ShifterOperand) : move true 15 op s = .fault (.notImplemented s.pc) :=
    move_fault.mpr ⟨⟨rfl, rfl⟩, rfl⟩
  exact ⟨exec_of_effect hc (report _), exec_of_effect hc (report _), exec_of_effect hc (report _), rfl⟩

/-! ## Status-register transfers (43_psr_transfer.md) -/

theorem transferCpsr_spec {f : BitVec 4} {op : Word} {s t : State}
    (ht : t = (s.withCpsr (maskedWrite f s.cpsr op)).advance) :
    (∀ k, k < 32 → t.cpsr.getLsbD k = if f.getLsbD (k / 8) then op.getLsbD k else s.cpsr.getLsbD k) ∧
    t.pc = s.pc + 4#32 ∧ OnlyCells [.s 7] s t ∧ SpsrsKept s t := by
  subst ht
  refine ⟨fun k hk => ?_, by simp, (withCpsr_onlyCells ..).advance, fun k => by simp⟩
  rw [advance_cpsr, withCpsr_cpsr, fieldMaskSelectsWholeBytes f _ _ k hk]

/-- Settles O34: both forms are one masked write of CPSR and the advance. -/
theorem transferToCpsrResult : Obligations.TransferToCpsrResult := by
  unfold Obligations.TransferToCpsrResult
  intro c f rot imm8 rm s hc
  rw [← rotatedImm_eq_rotateRight, ite_pc_get]
  exact ⟨⟨_, exec_passed hc, transferCpsr_spec rfl⟩, ⟨_, exec_passed hc, transferCpsr_spec rfl⟩⟩

theorem transferSpsr_spec {f : BitVec 4} {op : Word} {m : SpsrMode} {s t : State}
    (ht : t = (s.writeSpsr m (maskedWrite f (s.readSpsr m) op)).advance) :
    (∀ k, k < 32 → (t.readSpsr m).getLsbD k = if f.getLsbD (k / 8) then op.getLsbD k else (s.readSpsr m).getLsbD k) ∧
    (∀ j, j ≠ m → t.readSpsr j = s.readSpsr j) ∧ t.cpsr = s.cpsr ∧ t.pc = s.pc + 4#32 ∧ OnlyCells [.s 7] s t := by
  subst ht
  refine ⟨fun k hk => ?_, fun j hj => ?_, by simp, by simp, (writeSpsr_onlyCells ..).advance⟩
  · rw [advance_readSpsr, writeSpsr_readSpsr_same, fieldMaskSelectsWholeBytes f _ _ k hk]
  · rw [advance_readSpsr, writeSpsr_readSpsr_ne hj]

/-- Settles O35: both forms are one masked write of the mode's SPSR and the advance. -/
theorem transferToSpsrResult : Obligations.TransferToSpsrResult := by
  unfold Obligations.TransferToSpsrResult
  intro c f rot imm8 rm s hc hsys
  obtain ⟨m, hm⟩ := Option.ne_none_iff_exists'.mp (mt (spsr?_eq_none _).mp hsys)
  rw [← rotatedImm_eq_rotateRight, ite_pc_get]
  exact ⟨m, hm, ⟨_, exec_of_effect hc (transferSpsr_next.mpr ⟨m, hm, rfl⟩), transferSpsr_spec rfl⟩,
    ⟨_, exec_of_effect hc (transferSpsr_next.mpr ⟨m, hm, rfl⟩), transferSpsr_spec rfl⟩⟩

/-- Settles O36: System mode sees no SPSR, and the transfer reports before it writes. -/
theorem transferToSpsrReportsInSystemMode : Obligations.TransferToSpsrReportsInSystemMode := by
  unfold Obligations.TransferToSpsrReportsInSystemMode
  exact fun c f rot imm8 rm s hc hsys => ⟨exec_of_effect hc (transferSpsr_fault.mpr ⟨hsys, rfl⟩),
    exec_of_effect hc (transferSpsr_fault.mpr ⟨hsys, rfl⟩), rfl⟩

end Sys2Proof.Machine
end

section
/-! PROOFS. All instructions: which can report, what each leaves in the pc and in the flags, and what none can change
(40_step_and_condition.md sections 3 and 4, 10_state.md section 5). -/

namespace Sys2Proof.Machine

/-! ## Reports (60_exceptions.md section 2) -/

theorem effect_not_refused (i : Instr) (s : State) (r : Refusal) : effect i s ≠ .refused r := by
  have hmove (f : Bool) (rd : Reg) (op : ShifterOperand) : move f rd op s ≠ .refused r := by
    unfold move; split <;> simp
  have htransfer (m : BitVec 4) (src : PsrSource) : transferSpsr m src s ≠ .refused r := by
    unfold transferSpsr; split <;> simp
  cases i with
  | b | bl | msrCpsrImm | msrCpsrReg => simp [effect, branch, branchLink, transferCpsr]
  | movImm | movRegImm | movRegReg => exact hmove _ _ _
  | msrSpsrImm | msrSpsrReg => exact htransfer _ _

theorem exec_not_refused (i : Instr) (s : State) (r : Refusal) : exec i s ≠ .refused r := by
  cases hc : conditionPassed i.cond s.cpsr with
  | false => simp [exec_skipped hc]
  | true => rw [exec_passed hc]; exact effect_not_refused i s r

theorem exec_fault {i : Instr} {s : State} {r : Fault} (h : exec i s = .fault r) :
    conditionPassed i.cond s.cpsr = true ∧ effect i s = .fault r := by
  cases hc : conditionPassed i.cond s.cpsr with
  | false => rw [exec_skipped hc] at h; cases h
  | true => exact ⟨rfl, exec_passed hc ▸ h⟩

/-- Settles O37: of the effects only `move` and `transferSpsr` can report, each in one case. -/
theorem instructionsReportOnlyInTheNamedCases : Obligations.InstructionsReportOnlyInTheNamedCases := by
  unfold Obligations.InstructionsReportOnlyInTheNamedCases
  refine fun i s => ⟨exec_not_refused i s, fun r h => ?_⟩
  obtain ⟨hc, he⟩ := exec_fault h
  refine ⟨hc, ?_⟩
  cases i with
  | b | bl | msrCpsrImm | msrCpsrReg => cases he
  | movImm | movRegImm | movRegReg =>
    obtain ⟨⟨hf, hrd⟩, hr⟩ := move_fault.mp he
    exact ⟨hf, hrd, hr⟩
  | msrSpsrImm | msrSpsrReg => exact transferSpsr_fault.mp he

/-- The two reports an instruction can end in. -/
theorem exec_fault_cases {i : Instr} {s : State} {r : Fault} (h : exec i s = .fault r) :
    r = .notImplemented s.pc ∨ r = .modeContextViolation := by
  obtain ⟨-, he⟩ := exec_fault h
  cases i with
  | b | bl | msrCpsrImm | msrCpsrReg => cases he
  | movImm | movRegImm | movRegReg => exact .inl (move_fault.mp he).2
  | msrSpsrImm | msrSpsrReg => exact .inr (transferSpsr_fault.mp he).2

/-! ## The pc (40_step_and_condition.md R107) -/

theorem move_next_pc {f : Bool} {rd : Reg} {op : ShifterOperand} {s t : State} (h : move f rd op s = .next t) :
    t.pc = if rd = 15 then (shifterOperand op s).1 else s.pc + 4#32 := by
  obtain ⟨-, rfl⟩ := move_next.mp h
  exact moveResult_pc ..

theorem transferSpsr_next_pc {m : BitVec 4} {src : PsrSource} {s t : State} (h : transferSpsr m src s = .next t) :
    t.pc = s.pc + 4#32 := by
  obtain ⟨k, -, rfl⟩ := transferSpsr_next.mp h
  simp

theorem transferCpsr_next_pc {m : BitVec 4} {src : PsrSource} {s t : State} (h : transferCpsr m src s = .next t) :
    t.pc = s.pc + 4#32 := by
  cases h
  simp

/-- Settles O38: family by family. -/
theorem pcAdvancesByFourUnlessRedirected : Obligations.PcAdvancesByFourUnlessRedirected := by
  unfold Obligations.PcAdvancesByFourUnlessRedirected
  intro i s t hc h
  rw [exec_passed hc] at h
  cases i with
  | b | bl => cases h; exact setPc_pc ..
  | movImm | movRegImm | movRegReg => exact move_next_pc h
  | msrCpsrImm | msrCpsrReg => exact transferCpsr_next_pc h
  | msrSpsrImm | msrSpsrReg => exact transferSpsr_next_pc h

/-- Settles O26: both branches leave the pc at the sum, whose value modulo 2^32 is that of the signed offset. -/
theorem branchTargetsWrapAndKeepAlignment : Obligations.BranchTargetsWrapAndKeepAlignment := by
  unfold Obligations.BranchTargetsWrapAndKeepAlignment
  intro s t w i hclass hd hc hnext
  have hpc : t.pc = s.pc + branchOffset (w.extractLsb' 0 24) := by
    have hpc := pcAdvancesByFourUnlessRedirected i s t hc hnext
    rw [decode_of_branch ((branch_mask_iff w).mpr hclass)] at hd
    obtain rfl := Option.some.inj hd
    unfold decodeBranch at hpc
    cases hb : w.getLsbD 24 <;> rw [hb] at hpc <;> exact hpc
  have hoff := branchOffset_toInt (w.extractLsb' 0 24)
  rw [BitVec.toInt_eq_toNat_cond] at hoff
  rw [hpc, BitVec.toNat_add]
  omega

/-! ## The flags (10_state.md section 5) -/

theorem getLsbD_of_field_eq {p q : Word} {lo n k : Nat} (h : p.extractLsb' lo n = q.extractLsb' lo n) (hlo : lo ≤ k)
    (hk : k < lo + n) : p.getLsbD k = q.getLsbD k := by
  have hbit := (field_eq_iff p lo _).mp h ⟨k - lo, by omega⟩
  have hin : k - lo < n := by omega
  simpa [Nat.add_sub_cancel' hlo, hin] using hbit

theorem subfield_eq {p q : Word} {lo n lo' n' : Nat} (h : p.extractLsb' lo n = q.extractLsb' lo n) (hlo : lo ≤ lo')
    (hn : lo' + n' ≤ lo + n) : p.extractLsb' lo' n' = q.extractLsb' lo' n' := by
  rw [field_eq_iff]
  intro k
  rw [getLsbD_of_field_eq h (by omega) (by omega)]
  simp

theorem move_next_flags {f : Bool} {rd : Reg} {op : ShifterOperand} {s t : State} (h : move f rd op s = .next t) :
    (t.cpsr.extractLsb' 29 3 ≠ s.cpsr.extractLsb' 29 3 → f = true ∧ rd ≠ 15) ∧
    t.cpsr.getLsbD 28 = s.cpsr.getLsbD 28 ∧ t.cpsr.extractLsb' 0 28 = s.cpsr.extractLsb' 0 28 := by
  obtain ⟨hn, rfl⟩ := move_next.mp h
  rw [moveResult_cpsr]
  cases f with
  | false => simp
  | true =>
    obtain ⟨-, -, -, hkept⟩ := moveFlags_bits (shifterOperand op s).1 (shifterOperand op s).2 s.cpsr
    exact ⟨fun _ => ⟨rfl, fun hrd => hn ⟨rfl, hrd⟩⟩, getLsbD_of_field_eq hkept (by decide) (by decide),
      subfield_eq hkept (by decide) (by decide)⟩

theorem transferCpsr_next_flags {m : BitVec 4} {src : PsrSource} {s t : State} (h : transferCpsr m src s = .next t) :
    (t.cpsr.extractLsb' 29 3 ≠ s.cpsr.extractLsb' 29 3 → m.getLsbD 3 = true) ∧
    (t.cpsr.getLsbD 28 ≠ s.cpsr.getLsbD 28 → m.getLsbD 3 = true) := by
  cases h
  rw [advance_cpsr, withCpsr_cpsr]
  cases hm : m.getLsbD 3 with
  | true => exact ⟨fun _ => rfl, fun _ => rfl⟩
  | false =>
    have htop := maskedWrite_top hm s.cpsr (psrOperand src s)
    exact ⟨fun hne => absurd (subfield_eq htop (by decide) (by decide)) hne,
      fun hne => absurd (getLsbD_of_field_eq htop (by decide) (by decide)) hne⟩

theorem transferSpsr_next_cpsr {m : BitVec 4} {src : PsrSource} {s t : State} (h : transferSpsr m src s = .next t) :
    t.cpsr = s.cpsr := by
  obtain ⟨k, -, rfl⟩ := transferSpsr_next.mp h
  simp

/-- Settles O39: a Move keeps bits 28:0, a transfer to CPSR with mask bit 3 clear keeps the top byte, everything else keeps
CPSR. -/
theorem flagsAreWrittenOnlyByTheListedInstructions : Obligations.FlagsAreWrittenOnlyByTheListedInstructions := by
  unfold Obligations.FlagsAreWrittenOnlyByTheListedInstructions
  intro i s t h
  rcases exec_next_cases h with ⟨-, rfl⟩ | ⟨-, he⟩
  · simp
  cases i with
  | b | bl => cases he; simp
  | msrSpsrImm | msrSpsrReg => simp [transferSpsr_next_cpsr he]
  | movImm | movRegImm | movRegReg =>
    obtain ⟨hflags, hV, hlow⟩ := move_next_flags he
    exact ⟨hflags, (absurd hV ·), (absurd hlow ·)⟩
  | msrCpsrImm | msrCpsrReg =>
    obtain ⟨hflags, hV⟩ := transferCpsr_next_flags he
    exact ⟨hflags, hV, fun _ => trivial⟩

/-! ## What no instruction changes -/

/-- The shapes of the state after an instruction. -/
theorem exec_next_shape {i : Instr} {s t : State} (h : exec i s = .next t) :
    (∃ v, t = s.setPc v) ∨ (∃ v, t = (s.set 14 s.pc).setPc v) ∨ (∃ f rd vc, t = moveResult f rd vc s) ∨
    (∃ v, t = (s.withCpsr v).advance) ∨ ∃ k v, s.mode.spsr? = some k ∧ t = (s.writeSpsr k v).advance := by
  rcases exec_next_cases h with ⟨-, rfl⟩ | ⟨-, he⟩
  · exact .inl ⟨_, rfl⟩
  cases i with
  | b => cases he; exact .inl ⟨_, rfl⟩
  | bl => cases he; exact .inr (.inl ⟨_, rfl⟩)
  | movImm | movRegImm | movRegReg =>
    obtain ⟨-, rfl⟩ := move_next.mp he
    exact .inr (.inr (.inl ⟨_, _, _, rfl⟩))
  | msrCpsrImm | msrCpsrReg => cases he; exact .inr (.inr (.inr (.inl ⟨_, rfl⟩)))
  | msrSpsrImm | msrSpsrReg =>
    obtain ⟨k, hk, rfl⟩ := transferSpsr_next.mp he
    exact .inr (.inr (.inr (.inr ⟨k, _, hk, rfl⟩)))

theorem exec_next_mode_mem {i : Instr} {s t : State} (h : exec i s = .next t) : t.mode = s.mode ∧ t.mem = s.mem := by
  rcases exec_next_shape h with ⟨v, rfl⟩ | ⟨v, rfl⟩ | ⟨f, rd, vc, rfl⟩ | ⟨v, rfl⟩ | ⟨k, v, -, rfl⟩ <;> simp

theorem exec_next_hidden {i : Instr} {s t : State} (h : exec i s = .next t) :
    (∀ c, Hidden s.mode c → t.readCell c = s.readCell c) ∧
    (∀ k, s.mode.spsr? ≠ some k → t.readSpsr k = s.readSpsr k) := by
  have hpc {c : PhysCell} (hc : Hidden s.mode c) : c ≠ .s 7 := fun he => hc 15 ((phys_pc _).trans he.symm)
  have hreg {c : PhysCell} (hc : Hidden s.mode c) (i : Reg) : c ≠ phys s.mode i := fun he => hc i he.symm
  rcases exec_next_shape h with ⟨v, rfl⟩ | ⟨v, rfl⟩ | ⟨f, rd, vc, rfl⟩ | ⟨v, rfl⟩ | ⟨j, v, hj, rfl⟩
  · exact ⟨fun c hc => by rw [setPc_readCell, if_neg (hpc hc)], fun k _ => setPc_readSpsr ..⟩
  · exact ⟨fun c hc => by rw [setPc_readCell, if_neg (hpc hc), set_readCell, if_neg (hreg hc 14)], fun k _ => by simp⟩
  · exact ⟨fun c hc => by rw [moveResult_readCell, if_neg (hreg hc rd), if_neg (hpc hc)], fun k _ => by simp⟩
  · exact ⟨fun c hc => by rw [advance_readCell, if_neg (hpc hc), withCpsr_readCell], fun k _ => by simp⟩
  · refine ⟨fun c hc => by rw [advance_readCell, if_neg (hpc hc), writeSpsr_readCell], fun k hk => ?_⟩
    have hne : k ≠ j := by rintro rfl; exact hk hj
    rw [advance_readSpsr, writeSpsr_readSpsr_ne hne]

end Sys2Proof.Machine
end

section
/-! PROOFS. The step and the operations of the interface (40_step_and_condition.md section 1, 60_exceptions.md): outcomes,
the state after a report, fetching what the host wrote, and the invariant of the memory. -/

namespace Sys2Proof.Machine

/-! ## The outcomes of a step (40_step_and_condition.md R111) -/

theorem stepOutcome_of_fetch_fault {s : State} (h : s.fetch = .fault (.addressingFault s.pc 4)) :
    stepOutcome s = (.addressingFault s.pc 4, s) := by
  simp [stepOutcome, outcomeOf, stateAfterStep, step_of_fault h, h, State.afterFault]

theorem stepOutcome_of_miss {s : State} {w : Word} (h : s.fetch = .next w) (hd : decode w = none) :
    step s = .fault (.decodeMiss s.pc w) ∧ stepOutcome s = (.decodeMiss s.pc w, s.advance) := by
  have hstep : step s = .fault (.decodeMiss s.pc w) := by rw [step_of_fetch h, hd]
  exact ⟨hstep, by simp [stepOutcome, outcomeOf, stateAfterStep, hstep, h, hd, State.afterFault]⟩

theorem step_of_decoded {s : State} {w : Word} {i : Instr} (h : s.fetch = .next w) (hd : decode w = some i) :
    step s = exec i s := by
  rw [step_of_fetch h, hd]

theorem stepOutcome_of_next {s t : State} {w : Word} {i : Instr} (h : s.fetch = .next w) (hd : decode w = some i)
    (he : exec i s = .next t) :
    stepOutcome s = (if conditionPassed i.cond s.cpsr then .executed else .skipped, t) := by
  have hstep : step s = .next t := (step_of_decoded h hd).trans he
  simp [stepOutcome, outcomeOf, executionOutcome, stateAfterStep, hstep, h, hd, he]

theorem stepOutcome_of_notImplemented {s : State} {w : Word} {i : Instr} (h : s.fetch = .next w) (hd : decode w = some i)
    (he : exec i s = .fault (.notImplemented s.pc)) : stepOutcome s = (.notImplemented s.pc w, s) := by
  have hstep := (step_of_decoded h hd).trans he
  simp [stepOutcome, outcomeOf, executionOutcome, stateAfterStep, hstep, h, hd, he, State.afterFault]

theorem stepOutcome_of_violation {s : State} {w : Word} {i : Instr} (h : s.fetch = .next w) (hd : decode w = some i)
    (he : exec i s = .fault .modeContextViolation) : stepOutcome s = (.modeContextViolation, s) := by
  have hstep := (step_of_decoded h hd).trans he
  simp [stepOutcome, outcomeOf, executionOutcome, stateAfterStep, hstep, h, hd, he, State.afterFault]

theorem step_not_refused (s : State) (r : Refusal) : step s ≠ .refused r := by
  rcases fetch_cases s with ⟨w, hw⟩ | hf
  · cases hd : decode w with
    | none => simp [(stepOutcome_of_miss hw hd).1]
    | some i => rw [step_of_decoded hw hd]; exact exec_not_refused i s r
  · simp [step_of_fault hf]

/-- Settles O43: by what the fetch, the decoder, the condition and the instruction answer, in this order. -/
theorem everyStepHasOneOfSixOutcomes : Obligations.EveryStepHasOneOfSixOutcomes := by
  unfold Obligations.EveryStepHasOneOfSixOutcomes
  refine fun s => ⟨step_not_refused s, ?_⟩
  rcases fetch_cases s with ⟨w, hw⟩ | hf
  case inr => exact .inl ⟨hf, stepOutcome_of_fetch_fault hf⟩
  refine .inr ⟨w, hw, ?_⟩
  cases hd : decode w with
  | none => exact .inl ⟨rfl, (stepOutcome_of_miss hw hd).2⟩
  | some i =>
    refine .inr ⟨i, rfl, ?_⟩
    cases hc : conditionPassed i.cond s.cpsr with
    | false => exact .inl ⟨rfl, by rw [stepOutcome_of_next hw hd (exec_skipped hc), hc]; rfl⟩
    | true =>
      refine .inr ⟨rfl, ?_⟩
      rw [step_of_decoded hw hd]
      cases he : exec i s with
      | next t => exact .inl ⟨t, rfl, by rw [stepOutcome_of_next hw hd he, hc]; rfl⟩
      | refused r => exact absurd he (exec_not_refused i s r)
      | fault r =>
        rcases exec_fault_cases he with rfl | rfl
        · exact .inr (.inl ⟨rfl, stepOutcome_of_notImplemented hw hd he⟩)
        · exact .inr (.inr ⟨rfl, stepOutcome_of_violation hw hd he⟩)

/-- Settles O40: the word at the pc is the one those bytes stand for. -/
theorem stepRunsTheDecodedInstruction : Obligations.StepRunsTheDecodedInstruction := by
  unfold Obligations.StepRunsTheDecodedInstruction
  intro s bs i hread hdec
  have hw : s.fetch = .next (leWord bs) := readU32_eq_next_iff_read.mpr ⟨bs, hread, rfl⟩
  refine step_of_decoded hw ?_
  rw [decodeBytes, if_pos (length_of_read_eq_next hread)] at hdec
  cases hd : decode (leWord bs) with
  | none => rw [hd] at hdec; cases hdec
  | some j => rw [hd] at hdec; cases hdec; rfl

/-- Settles O41: a fetch that gives no word is the bus's report of the pc. -/
theorem fetchFaultChangesNothing : Obligations.FetchFaultChangesNothing := by
  unfold Obligations.FetchFaultChangesNothing
  intro s hno
  rcases fetch_cases s with ⟨w, hw⟩ | hf
  · obtain ⟨bs, hbs, -⟩ := readU32_eq_next_iff_read.mp hw
    exact absurd hbs (hno bs)
  · exact ⟨step_of_fault hf, stepOutcome_of_fetch_fault hf⟩

/-- Settles O42: the state that `DecodeMiss` leaves is `advance`. -/
theorem decodeMissAdvancesOnlyThePc : Obligations.DecodeMissAdvancesOnlyThePc := by
  unfold Obligations.DecodeMissAdvancesOnlyThePc
  intro s w hw hd
  obtain ⟨hstep, hout⟩ := stepOutcome_of_miss (s := s) hw hd
  rw [hout]
  exact ⟨hstep, rfl, advance_pc s, setPc_onlyCells .., setPc_statusKept ..⟩

/-! ## What a step cannot change -/

theorem step_next_mode_mem {s t : State} (h : step s = .next t) : t.mode = s.mode ∧ t.mem = s.mem := by
  obtain ⟨w, i, -, -, he⟩ := step_next_cases h
  exact exec_next_mode_mem he

/-- Settles O44: no instruction writes memory or the mode. -/
theorem stepsNeverWriteMemoryOrMode : Obligations.StepsNeverWriteMemoryOrMode := by
  unfold Obligations.StepsNeverWriteMemoryOrMode
  intro s t h
  obtain ⟨hmode, hmem⟩ := step_next_mode_mem h
  exact ⟨hmode, hmem, fun _ _ => by rw [hmem]⟩

/-- Settles O59: no instruction writes what its mode cannot reach. -/
theorem stepsLeaveOtherModesRegistersAlone : Obligations.StepsLeaveOtherModesRegistersAlone := by
  unfold Obligations.StepsLeaveOtherModesRegistersAlone
  intro s t h
  obtain ⟨w, i, -, -, he⟩ := step_next_cases h
  exact exec_next_hidden he

theorem afterFault_mode_mem (s : State) (r : Fault) :
    (s.afterFault r).mode = s.mode ∧ (s.afterFault r).mem = s.mem := by
  cases r <;> simp [State.afterFault]

/-- A step keeps the mode and the memory, a report included. -/
theorem stateAfterStep_mode_mem (s : State) :
    (stateAfterStep s).mode = s.mode ∧ (stateAfterStep s).mem = s.mem := by
  unfold stateAfterStep
  cases h : step s with
  | next t => exact step_next_mode_mem h
  | fault r => exact afterFault_mode_mem s r
  | refused r => exact ⟨rfl, rfl⟩

/-! ## The operations of the interface (00_scope.md R5) -/

@[simp] theorem answer_state {α : Type} (wrap : α → OpResult) (o : Host.Outcome α Fault Refusal) (s : State) :
    (answer wrap o s).2 = s := by
  cases o <;> rfl

/-- A command leaves the state it makes or the state it found. -/
theorem command_state {P : State → Prop} {o : Host.Outcome State Fault Refusal} {s : State} (hs : P s)
    (hnext : ∀ t, o = .next t → P t) : P (command o s).2 := by
  cases o with
  | next t => exact hnext t rfl
  | fault r => exact hs
  | refused r => exact hs

theorem busCommand_state {P : State → Prop} {o : Host.Outcome Memory Fault Refusal} {s : State} (hs : P s)
    (hnext : ∀ m, o = .next m → P (s.withMem m)) : P (busCommand o s).2 := by
  cases o with
  | next m => exact hnext m rfl
  | fault r => exact hs
  | refused r => exact hs

theorem load_eq_next {s t : State} {image : List Byte} (h : s.load image = .next t) :
    ∃ m, s.mem.loadCartridge image = .next m ∧ t = (s.withMem m).setPc 0x08000000#32 := by
  unfold State.load at h
  cases hl : s.mem.loadCartridge image with
  | next m => rw [hl] at h; cases h; exact ⟨m, rfl, rfl⟩
  | fault r => rw [hl] at h; cases h
  | refused r => rw [hl] at h; cases h

theorem setSpsr_eq_next {s t : State} {v : Word} (h : s.setSpsr v = .next t) : ∃ k, t = s.writeSpsr k v := by
  unfold State.setSpsr at h
  cases hk : s.mode.spsr? with
  | none => rw [hk] at h; cases h
  | some k => rw [hk] at h; cases h; exact ⟨k, rfl⟩

/-- Settles O8: every other operation leaves the mode it found. -/
theorem modeChangesOnlyBySetModeOrReset : Obligations.ModeChangesOnlyBySetModeOrReset := by
  unfold Obligations.ModeChangesOnlyBySetModeOrReset
  intro op s hne
  cases op with
  | construction => exact .inr (.inr (.inr rfl))
  | resetRegisters => exact .inr (.inl rfl)
  | systemReset => exact .inr (.inr (.inl rfl))
  | setMode m => exact .inl ⟨m, rfl⟩
  | resetBus | getRegister | mode | cpsr | setCpsr => exact absurd rfl hne
  | setRegister => exact absurd (set_mode ..) hne
  | spsr | read | readU32 => exact absurd (congrArg _ (answer_state ..)) hne
  | step => exact absurd (stateAfterStep_mode_mem s).1 hne
  | load image =>
    refine absurd (command_state (P := fun t => t.mode = s.mode) rfl fun t h => ?_) hne
    obtain ⟨m, -, rfl⟩ := load_eq_next h
    simp
  | setSpsr v =>
    refine absurd (command_state (P := fun t => t.mode = s.mode) rfl fun t h => ?_) hne
    obtain ⟨k, rfl⟩ := setSpsr_eq_next h
    rfl
  | write | loadCartridge => exact absurd (busCommand_state (P := fun t => t.mode = s.mode) rfl fun _ _ => rfl) hne

/-- Settles O56: the reset state lists no byte. -/
theorem resetStateMeetsTheInvariant : Obligations.ResetStateMeetsTheInvariant := wf_initial

/-- Settles O57: a step leaves the memory, and each operation on the bus keeps its canonical form. -/
theorem everyOperationKeepsTheInvariant : Obligations.EveryOperationKeepsTheInvariant := by
  unfold Obligations.EveryOperationKeepsTheInvariant
  have of_mem {s t : State} (hs : s.Inv) (h : t.mem = s.mem) : t.Inv := by rw [State.Inv, h]; exact hs
  refine ⟨fun s t hs h => of_mem hs (step_next_mode_mem h).2, fun op s hs => ?_⟩
  cases op with
  | construction | resetBus | systemReset => exact wf_initial
  | resetRegisters | getRegister | mode | setMode | cpsr | setCpsr => exact hs
  | setRegister => exact of_mem hs (set_mem ..)
  | spsr | read | readU32 => exact of_mem hs (congrArg _ (answer_state ..))
  | step => exact of_mem hs (stateAfterStep_mode_mem s).2
  | load image =>
    refine command_state hs fun t h => ?_
    obtain ⟨m, hm, rfl⟩ := load_eq_next h
    exact of_mem (s := s.withMem m) (wf_loadCartridge hs hm) (setPc_mem ..)
  | setSpsr v =>
    refine command_state hs fun t h => ?_
    obtain ⟨k, rfl⟩ := setSpsr_eq_next h
    exact hs
  | write a bs => exact busCommand_state hs fun m hm => wf_write hs hm
  | loadCartridge image => exact busCommand_state hs fun m hm => wf_loadCartridge hs hm

end Sys2Proof.Machine
end

section
/-! PROOFS. Reports, runs and isolation (60_exceptions.md section 1, 20_memory.md section 8, 70_reset_and_hazards.md section
5, 10_state.md sections 3 and 5). -/

namespace Sys2Proof.Machine

/-! ## Reports leave the state (60_exceptions.md R160) -/

theorem command_done_or_same (o : Host.Outcome State Fault Refusal) (s : State) :
    (command o s).1 = .done ∨ (command o s).2 = s := by
  cases o with
  | next t => exact .inl rfl
  | fault r => exact .inr rfl
  | refused r => exact .inr rfl

theorem busCommand_done_or_same (o : Host.Outcome Memory Fault Refusal) (s : State) :
    (busCommand o s).1 = .done ∨ (busCommand o s).2 = s := by
  cases o with
  | next m => exact .inl rfl
  | fault r => exact .inr rfl
  | refused r => exact .inr rfl

/-- An operation other than a step succeeds as a command or leaves the state. -/
theorem performOp_done_or_same {op : HostOp} (h : op ≠ .step) (s : State) :
    (performOp op s).1 = .done ∨ (performOp op s).2 = s := by
  cases op with
  | step => exact absurd rfl h
  | construction | resetRegisters | resetBus | systemReset | setRegister | setMode | setCpsr => exact .inl rfl
  | getRegister | mode | cpsr => exact .inr rfl
  | spsr | read | readU32 => exact .inr (answer_state ..)
  | load | setSpsr => exact command_done_or_same ..
  | write | loadCartridge => exact busCommand_done_or_same ..

/-- Settles O58: by `performOp_done_or_same`, and for a step by its six outcomes. -/
theorem reportsLeaveTheStateUnchanged : Obligations.ReportsLeaveTheStateUnchanged := by
  unfold Obligations.ReportsLeaveTheStateUnchanged
  intro op s
  by_cases hop : op = .step
  · subst hop
    refine ⟨fun r h => (by cases h), fun r h => (by cases h), ?_⟩
    rintro _ ⟨⟩ hex hsk hmiss
    have left {o : StepOutcome} {t : State} (h : stepOutcome s = (o, t)) : outcomeOf s = o ∧ stateAfterStep s = t :=
      ⟨congrArg Prod.fst h, congrArg Prod.snd h⟩
    obtain ⟨-, ⟨-, h⟩ | ⟨w, -, ⟨-, h⟩ | ⟨i, -, ⟨-, h⟩ | ⟨-, ⟨t, -, h⟩ | ⟨-, h⟩ | ⟨-, h⟩⟩⟩⟩⟩ := everyStepHasOneOfSixOutcomes s
    · exact (left h).2
    · exact absurd (left h).1 (hmiss _ _)
    · exact absurd (left h).1 hsk
    · exact absurd (left h).1 hex
    · exact (left h).2
    · exact (left h).2
  · have hdone := performOp_done_or_same hop s
    refine ⟨fun r h => ?_, fun r h => ?_, fun o h _ _ _ => ?_⟩ <;> exact hdone.resolve_left (by rw [h]; simp)

/-! ## Fetching what the host wrote (20_memory.md section 8) -/

theorem leWord_wordBytes (w : Word) : leWord (wordBytes w) = w := by
  refine (eq_leWord_four.mpr ?_).symm
  have hlt := w.isLt
  simp only [BitVec.extractLsb'_toNat, Nat.shiftRight_eq_div_pow]
  omega

theorem one_le_length_wordBytes (w : Word) : 1 ≤ (wordBytes w).length := by simp [wordBytes]

/-- The word written at the pc is the next one fetched. -/
theorem fetch_of_write {s : State} {m : Memory} {w : Word} (hwf : s.mem.wf)
    (h : s.mem.write s.pc (wordBytes w) = .next m) : (s.withMem m).fetch = .next w := by
  rw [State.fetch, withMem_mem, withMem_pc]
  exact readU32_eq_next_iff_read.mpr ⟨_, read_write_same hwf h, (leWord_wordBytes w).symm⟩

/-- The boot ROM serves four bytes at address 0. -/
theorem owner_zero (m : Memory) : m.owner 0#32 4 = some ⟨.bootRom, 0x00000000, 0x00004000⟩ :=
  (owner_outside_rom (.inl (by decide))).mpr (by decide)

/-- `placeWord` puts the word where the next fetch reads, from every canonical memory (log 25). -/
theorem fetch_placeWord {s : State} {w : Word} (hwf : s.mem.wf) : (s.placeWord w).fetch = .next w := by
  unfold State.placeWord
  cases h : s.mem.write s.pc (wordBytes w) with
  | next m => exact fetch_of_write hwf h
  | fault r =>
    have hzero : (s.setPc 0#32).mem.write (s.setPc 0#32).pc (wordBytes w) =
        .next { s.mem with cells := setBytes 0 (wordBytes w) s.mem.cells } := by
      rw [setPc_mem, setPc_pc]
      exact write_of_owner (one_le_length_wordBytes w) (owner_zero s.mem)
    exact fetch_of_write (by rw [setPc_mem]; exact hwf) hzero
  | refused r =>
    cases ho : s.mem.owner s.pc (wordBytes w).length with
    | none => rw [write_of_no_owner (one_le_length_wordBytes w) ho] at h; cases h
    | some b => rw [write_of_owner (one_le_length_wordBytes w) ho] at h; cases h

/-- Settles O45: in both cases the fetch gives the word, and the step runs what it decodes to. -/
theorem nextFetchSeesTheWrittenWord : Obligations.NextFetchSeesTheWrittenWord := by
  unfold Obligations.NextFetchSeesTheWrittenWord
  refine ⟨fun s m w i hwf hw hd => step_of_decoded (fetch_of_write hwf hw) hd, fun s w i hwf hd => ?_⟩
  have hword : BitVec.ofNat 32 (w % 2 ^ 32) = BitVec.ofNat 32 w := by apply BitVec.eq_of_toNat_eq; simp
  rw [State.withFetchWord, hword]
  exact step_of_decoded (fetch_placeWord hwf) hd

/-! ## The self-branch (70_reset_and_hazards.md section 5) -/

theorem setPc_self (s : State) : s.setPc s.pc = s := by
  refine state_eq (setPc_mode ..) (fun c => ?_) (setPc_cpsr ..) (fun _ => setPc_readSpsr ..) (setPc_mem ..)
  rw [setPc_readCell]
  split
  · next hc => rw [hc, pc_eq_cell]
  · rfl

theorem run_of_next {s t : State} (k : Nat) (h : step s = .next t) :
    Host.Core.run Sys2Proof.core (k + 1) s = Host.Core.run Sys2Proof.core k t := by
  have hcore : Sys2Proof.core.step s = .next t := h
  simp only [Host.Core.run, hcore]

theorem run_of_fault {s : State} {r : Fault} (k : Nat) (h : step s = .fault r) :
    Host.Core.run Sys2Proof.core (k + 1) s = .fault r := by
  have hcore : Sys2Proof.core.step s = .fault r := h
  simp only [Host.Core.run, hcore]

/-- Settles O46: the self-branch writes the pc it read, and a run of such steps stays where it is. -/
theorem selfBranchIsAFixedPoint : Obligations.SelfBranchIsAFixedPoint := by
  unfold Obligations.SelfBranchIsAFixedPoint
  intro s hended
  have hstep : step s = .next s := by
    have hd : decode 0xEAFFFFFE#32 = some (.b .al 0#32) := by decide
    have hbranch : branch 0#32 s = .next s := by rw [branch, BitVec.add_zero, setPc_self]
    exact (step_of_decoded hended hd).trans (exec_of_effect rfl hbranch)
  refine ⟨hstep, fun k => ?_⟩
  induction k with
  | zero => rfl
  | succ k ih => exact (run_of_next k hstep).trans ih

/-! ## A step is blind to what its mode cannot reach (10_state.md sections 3 and 5) -/

theorem SameView.pc {s t : State} (h : SameView s t) : t.pc = s.pc := by
  obtain ⟨-, hget, -⟩ := h
  exact hget 15

theorem SameView.cpsr {s t : State} (h : SameView s t) : t.cpsr = s.cpsr := by
  obtain ⟨-, -, hcpsr, -⟩ := h
  exact hcpsr

theorem SameView.set {s t : State} (h : SameView s t) (i : Reg) (v : Word) : SameView (s.set i v) (t.set i v) := by
  obtain ⟨hmode, hget, hcpsr, hmem, hspsr⟩ := h
  refine ⟨by simp [hmode], fun j => ?_, by simp [hcpsr], by simp [hmem], by simpa using hspsr⟩
  rw [set_get, set_get, hget]

theorem SameView.setPc {s t : State} (h : SameView s t) (v : Word) : SameView (s.setPc v) (t.setPc v) := h.set 15 v

theorem SameView.advance {s t : State} (h : SameView s t) : SameView s.advance t.advance := by
  have hadv := h.setPc (s.pc + Config.instrBytes)
  rwa [State.advance, State.advance, h.pc]

theorem SameView.withCpsr {s t : State} (h : SameView s t) (v : Word) : SameView (s.withCpsr v) (t.withCpsr v) := by
  obtain ⟨hmode, hget, -, hmem, hspsr⟩ := h
  exact ⟨hmode, fun j => by simpa using hget j, rfl, hmem, hspsr⟩

theorem SameView.writeSpsr {s t : State} (h : SameView s t) {k : SpsrMode} (hk : s.mode.spsr? = some k) (v : Word) :
    SameView (s.writeSpsr k v) (t.writeSpsr k v) := by
  obtain ⟨hmode, hget, hcpsr, hmem, -⟩ := h
  refine ⟨hmode, fun j => by simpa using hget j, hcpsr, hmem, fun j hj => ?_⟩
  obtain rfl : k = j := Option.some.inj (hk.symm.trans hj)
  simp

theorem moveResult_get (f : Bool) (rd i : Reg) (vc : Word × Bool) (s : State) : (moveResult f rd vc s).get i =
    if i = rd then vc.1 else if i = 15 then s.pc + 4#32 else s.get i := by
  rw [State.get, moveResult_mode, moveResult_readCell]
  simp only [phys_eq_iff, phys_eq_pc_iff, State.get]

theorem SameView.moveResult {s t : State} (h : SameView s t) (f : Bool) (rd : Reg) (vc : Word × Bool) :
    SameView (moveResult f rd vc s) (moveResult f rd vc t) := by
  have hpc := h.pc
  obtain ⟨hmode, hget, hcpsr, hmem, hspsr⟩ := h
  refine ⟨by simp [hmode], fun i => ?_, ?_, by simp [hmem], by simpa using hspsr⟩
  · rw [moveResult_get, moveResult_get, hpc, hget]
  · rw [moveResult_cpsr, moveResult_cpsr, hcpsr]

theorem SameView.shifterOperand {s t : State} (h : SameView s t) (op : ShifterOperand) :
    shifterOperand op t = shifterOperand op s := by
  obtain ⟨-, hget, hcpsr, -, -⟩ := h
  cases op <;> simp only [Machine.shifterOperand, hget, hcpsr]

theorem SameView.psrOperand {s t : State} (h : SameView s t) (src : PsrSource) : psrOperand src t = psrOperand src s := by
  obtain ⟨-, hget, -⟩ := h
  cases src <;> simp only [Machine.psrOperand, hget]

theorem SameView.move {s t : State} (h : SameView s t) (f : Bool) (rd : Reg) (op : ShifterOperand) :
    SameOutcome (move f rd op s) (move f rd op t) := by
  unfold Machine.move
  split
  · exact congrArg _ h.pc
  · rw [h.shifterOperand]
    exact h.moveResult ..

theorem SameView.transferCpsr {s t : State} (h : SameView s t) (m : BitVec 4) (src : PsrSource) :
    SameOutcome (transferCpsr m src s) (transferCpsr m src t) := by
  unfold Machine.transferCpsr
  rw [h.psrOperand, h.cpsr]
  exact (h.withCpsr _).advance

theorem SameView.transferSpsr {s t : State} (h : SameView s t) (m : BitVec 4) (src : PsrSource) :
    SameOutcome (transferSpsr m src s) (transferSpsr m src t) := by
  have hop := h.psrOperand src
  have ⟨hmode, _, _, _, hspsr⟩ := h
  unfold Machine.transferSpsr
  rw [hmode, hop]
  cases hk : s.mode.spsr? with
  | none => exact rfl
  | some k =>
    simp only [hspsr k hk]
    exact (h.writeSpsr hk _).advance

theorem SameView.effect {s t : State} (h : SameView s t) (i : Instr) : SameOutcome (effect i s) (effect i t) := by
  have hpc := h.pc
  cases i with
  | b c o =>
    simp only [Machine.effect, branch, hpc]
    exact h.setPc _
  | bl c o =>
    simp only [Machine.effect, branchLink, hpc]
    exact (h.set ..).setPc _
  | movImm | movRegImm | movRegReg => exact h.move ..
  | msrCpsrImm | msrCpsrReg => exact h.transferCpsr ..
  | msrSpsrImm | msrSpsrReg => exact h.transferSpsr ..

theorem SameView.exec {s t : State} (h : SameView s t) (i : Instr) : SameOutcome (exec i s) (exec i t) := by
  cases hc : conditionPassed i.cond s.cpsr with
  | false =>
    rw [exec_skipped hc, exec_skipped (h.cpsr ▸ hc)]
    exact h.advance
  | true =>
    rw [exec_passed hc, exec_passed (h.cpsr ▸ hc)]
    exact h.effect i

theorem SameView.step {s t : State} (h : SameView s t) : SameOutcome (step s) (step t) := by
  have hpc := h.pc
  have hfetch : t.fetch = s.fetch := by
    obtain ⟨-, -, -, hmem, -⟩ := h
    rw [State.fetch, State.fetch, hmem, hpc]
  rcases fetch_cases s with ⟨w, hw⟩ | hf
  · rw [step_of_fetch hw, step_of_fetch (hfetch.trans hw), hpc]
    cases decode w with
    | none => exact rfl
    | some i => exact h.exec i
  · rw [step_of_fault hf, step_of_fault (hfetch.trans hf)]
    exact rfl

theorem SameOutcome.of_next {s : State} {o : Host.Outcome State Fault Refusal} (h : SameOutcome (.next s) o) :
    ∃ t, o = .next t ∧ SameView s t := by
  cases o with
  | next t => exact ⟨t, rfl, h⟩
  | fault r => exact h.elim
  | refused r => exact h.elim

theorem SameOutcome.of_fault {r : Fault} {o : Host.Outcome State Fault Refusal} (h : SameOutcome (.fault r) o) :
    o = .fault r := by
  cases o with
  | next t => exact h.elim
  | fault q => exact congrArg _ h
  | refused q => exact h.elim

/-- Settles O60: every part of a step reads and writes through the view, and a run is a step at a time. -/
theorem stepsAreBlindToOtherModesRegisters : Obligations.StepsAreBlindToOtherModesRegisters := by
  unfold Obligations.StepsAreBlindToOtherModesRegisters
  refine ⟨fun s t h => h.step, fun k => ?_⟩
  induction k with
  | zero => exact fun s t h => h
  | succ k ih =>
    intro s t h
    have hstep := h.step
    cases hs : Machine.step s with
    | next s' =>
      obtain ⟨t', ht, hview⟩ := (hs ▸ hstep).of_next
      rw [run_of_next k hs, run_of_next k ht]
      exact ih s' t' hview
    | fault r =>
      rw [run_of_fault k hs, run_of_fault k (hs ▸ hstep).of_fault]
      exact rfl
    | refused r => exact absurd hs (step_not_refused s r)

end Sys2Proof.Machine
end
